-- ==== Sys2Proof/Word.lean ====
section
/-! DEFINITION. The machine's words: 16-bit words (00_scope.md R7, R10), 8-bit characters (20_memory.md R59) and the
index of a general register (10_state.md R21). -/

namespace Sys2Proof

/-- A register, a memory cell or an address: 16 bits, arithmetic modulo 2^16 (R7, R10). -/
abbrev Word := BitVec 16

/-- A character of the keyboard or the display, and a byte of an object file (R34, R59, R230). -/
abbrev Byte := BitVec 8

/-- The number of a general register R0 to R7 (R21). -/
abbrev RegIx := Fin 8

end Sys2Proof
end

