-- ==== Sys2Proof/Syntax.lean ====
section
/-! DEFINITION. The instructions: one constructor per row of spec/opcode_table.json, in the table's order. An immediate
field is kept at the width of its field; the operand functions of Machine/Operands.lean extend it (30_encoding.md R94).
Bits the decoder ignores (R97) are no part of an instruction. -/

namespace Sys2Proof

/-- An instruction (30_encoding.md R92, R93, R100, R103). -/
inductive Instr where
  /-- BR, opcode 0000: branch if a flag that the mask selects is set (42_control.md R170). -/
  | br (n z p : Bool) (off : BitVec 9)
  /-- ADD, opcode 0001, bit 5 = 0: register form (40_operate.md R140). -/
  | addReg (dr sr1 sr2 : RegIx)
  /-- ADD, opcode 0001, bit 5 = 1: immediate form (40_operate.md R140). -/
  | addImm (dr sr1 : RegIx) (imm : BitVec 5)
  /-- LD, opcode 0010 (41_data_movement.md R150). -/
  | ld (dr : RegIx) (off : BitVec 9)
  /-- ST, opcode 0011 (41_data_movement.md R154). -/
  | st (sr : RegIx) (off : BitVec 9)
  /-- JSR, opcode 0100, bit 11 = 1 (42_control.md R172). -/
  | jsr (off : BitVec 11)
  /-- JSRR, opcode 0100, bit 11 = 0 (42_control.md R173). -/
  | jsrr (base : RegIx)
  /-- AND, opcode 0101, bit 5 = 0: register form (40_operate.md R141). -/
  | andReg (dr sr1 sr2 : RegIx)
  /-- AND, opcode 0101, bit 5 = 1: immediate form (40_operate.md R141). -/
  | andImm (dr sr1 : RegIx) (imm : BitVec 5)
  /-- LDR, opcode 0110 (41_data_movement.md R152). -/
  | ldr (dr base : RegIx) (off : BitVec 6)
  /-- STR, opcode 0111 (41_data_movement.md R156). -/
  | str (sr base : RegIx) (off : BitVec 6)
  /-- RTI, opcode 1000 (43_system.md R181). -/
  | rti
  /-- NOT, opcode 1001 (40_operate.md R142). -/
  | not (dr sr : RegIx)
  /-- LDI, opcode 1010 (41_data_movement.md R151). -/
  | ldi (dr : RegIx) (off : BitVec 9)
  /-- STI, opcode 1011 (41_data_movement.md R155). -/
  | sti (sr : RegIx) (off : BitVec 9)
  /-- JMP, opcode 1100, for a base register other than R7 (42_control.md R171). -/
  | jmp (base : RegIx)
  /-- RET, opcode 1100 with BaseR = R7: the table's own row for these words (42_control.md R171). -/
  | ret
  /-- RESERVED, opcode 1101: the one illegal opcode (30_encoding.md R101, 43_system.md R182). -/
  | reserved
  /-- LEA, opcode 1110 (41_data_movement.md R153). -/
  | lea (dr : RegIx) (off : BitVec 9)
  /-- TRAP, opcode 1111 (43_system.md R180). -/
  | trap (vect : BitVec 8)
  deriving DecidableEq, Repr

end Sys2Proof
end

