-- ==== Sys2Proof/WellFormed.lean ====
section
/-! DEFINITION. Which instructions have words of their own. Register numbers and immediate fields are in range by their
types, so one check is left: the words of JMP with BaseR = R7 are RET's (42_control.md R171). -/

namespace Sys2Proof

/-- `i` is the instruction of some word: a JMP names a base register other than R7, since RET is JMP with BaseR = R7
(42_control.md R171) and has a constructor of its own. -/
def Instr.wellFormed : Instr → Bool
  | .jmp base => base ≠ 7
  | .br _ _ _ _ | .addReg _ _ _ | .addImm _ _ _ | .ld _ _ | .st _ _ | .jsr _ | .jsrr _ | .andReg _ _ _
  | .andImm _ _ _ | .ldr _ _ _ | .str _ _ _ | .rti | .not _ _ | .ldi _ _ | .sti _ _ | .ret | .reserved
  | .lea _ _ | .trap _ => true

end Sys2Proof
end

