-- ==== Sys2Proof/Decode.lean ====
section
/-! DEFINITION. Decoding and encoding of one instruction word (30_encoding.md R92, R93, R97, R103), and the field, sign-
and zero-extension helpers of 00_scope.md R9 and R10. Every word decodes (R91); nothing is rejected here, and the words of
the one illegal opcode decode to `Instr.reserved` (R101). -/

namespace Sys2Proof

/-- `sext_16` (00_scope.md R10): bits above the field repeat its top bit. -/
def sext16 {n : Nat} (v : BitVec n) : Word := v.signExtend 16

/-- `zext_16` (00_scope.md R10): bits above the field are zero. -/
def zext16 {n : Nat} (v : BitVec n) : Word := v.setWidth 16

/-- The register number in the three bits of `w` from bit `lo` up (R93). -/
def regAt (w : Word) (lo : Nat) : RegIx := (w.extractLsb' lo 3).toFin

/-- The instruction of a word of format JMP (R92): RET when BaseR = R7 (42_control.md R171). -/
def jumpVia (base : RegIx) : Instr := if base = 7 then .ret else .jmp base

/-- The decoder (R103): the opcode, bits 15:12, chooses the instruction; bit 5 chooses the form of ADD and AND, bit 11
JSR or JSRR, and BaseR = 7 names RET. The four Booleans of an arm are bits 15, 14, 13 and 12. -/
def decode (w : Word) : Instr :=
  match w.getLsbD 15, w.getLsbD 14, w.getLsbD 13, w.getLsbD 12 with
  | false, false, false, false => .br (w.getLsbD 11) (w.getLsbD 10) (w.getLsbD 9) (w.extractLsb' 0 9)
  | false, false, false, true =>
    if w.getLsbD 5 then .addImm (regAt w 9) (regAt w 6) (w.extractLsb' 0 5)
    else .addReg (regAt w 9) (regAt w 6) (regAt w 0)
  | false, false, true, false => .ld (regAt w 9) (w.extractLsb' 0 9)
  | false, false, true, true => .st (regAt w 9) (w.extractLsb' 0 9)
  | false, true, false, false => if w.getLsbD 11 then .jsr (w.extractLsb' 0 11) else .jsrr (regAt w 6)
  | false, true, false, true =>
    if w.getLsbD 5 then .andImm (regAt w 9) (regAt w 6) (w.extractLsb' 0 5)
    else .andReg (regAt w 9) (regAt w 6) (regAt w 0)
  | false, true, true, false => .ldr (regAt w 9) (regAt w 6) (w.extractLsb' 0 6)
  | false, true, true, true => .str (regAt w 9) (regAt w 6) (w.extractLsb' 0 6)
  | true, false, false, false => .rti
  | true, false, false, true => .not (regAt w 9) (regAt w 6)
  | true, false, true, false => .ldi (regAt w 9) (w.extractLsb' 0 9)
  | true, false, true, true => .sti (regAt w 9) (w.extractLsb' 0 9)
  | true, true, false, false => jumpVia (regAt w 6)
  | true, true, false, true => .reserved
  | true, true, true, false => .lea (regAt w 9) (w.extractLsb' 0 9)
  | true, true, true, true => .trap (w.extractLsb' 0 8)

/-- The word that holds `v` in the bits from `lo` up, and 0 in every other bit (R93). -/
def fieldAt {n : Nat} (lo : Nat) (v : BitVec n) : Word := v.setWidth 16 <<< lo

/-- The word that holds the number of register `r` in the three bits from `lo` up (R93). -/
def regField (lo : Nat) (r : RegIx) : Word := fieldAt lo (BitVec.ofFin r : BitVec 3)

/-- The encoder (R92, R93, R97): the opcode and form bits, and each field in its place. Ignored bits are written 0, but for
NOT, whose bits 5:0 are 111111. -/
def encode : Instr → Word
  | .br n z p off =>
    0x0000#16 ||| fieldAt 11 (BitVec.ofBool n) ||| fieldAt 10 (BitVec.ofBool z) ||| fieldAt 9 (BitVec.ofBool p) |||
      fieldAt 0 off
  | .addReg dr sr1 sr2 => 0x1000#16 ||| regField 9 dr ||| regField 6 sr1 ||| regField 0 sr2
  | .addImm dr sr1 imm => 0x1020#16 ||| regField 9 dr ||| regField 6 sr1 ||| fieldAt 0 imm
  | .ld dr off => 0x2000#16 ||| regField 9 dr ||| fieldAt 0 off
  | .st sr off => 0x3000#16 ||| regField 9 sr ||| fieldAt 0 off
  | .jsr off => 0x4800#16 ||| fieldAt 0 off
  | .jsrr base => 0x4000#16 ||| regField 6 base
  | .andReg dr sr1 sr2 => 0x5000#16 ||| regField 9 dr ||| regField 6 sr1 ||| regField 0 sr2
  | .andImm dr sr1 imm => 0x5020#16 ||| regField 9 dr ||| regField 6 sr1 ||| fieldAt 0 imm
  | .ldr dr base off => 0x6000#16 ||| regField 9 dr ||| regField 6 base ||| fieldAt 0 off
  | .str sr base off => 0x7000#16 ||| regField 9 sr ||| regField 6 base ||| fieldAt 0 off
  | .rti => 0x8000#16
  | .not dr sr => 0x903F#16 ||| regField 9 dr ||| regField 6 sr
  | .ldi dr off => 0xA000#16 ||| regField 9 dr ||| fieldAt 0 off
  | .sti sr off => 0xB000#16 ||| regField 9 sr ||| fieldAt 0 off
  | .jmp base => 0xC000#16 ||| regField 6 base
  | .ret => 0xC1C0#16
  | .reserved => 0xD000#16
  | .lea dr off => 0xE000#16 ||| regField 9 dr ||| fieldAt 0 off
  | .trap vect => 0xF000#16 ||| fieldAt 0 vect

/-- The bits of a word of instruction `i` that the decoder does not examine, each set to 1 (R97). -/
def ignoredBits : Instr → Word
  | .addReg _ _ _ | .andReg _ _ _ => 0x0018#16
  | .not _ _ => 0x003F#16
  | .jmp _ | .ret => 0x0E3F#16
  | .jsrr _ => 0x063F#16
  | .trap _ => 0x0F00#16
  | .rti | .reserved => 0x0FFF#16
  | .br _ _ _ _ | .addImm _ _ _ | .ld _ _ | .st _ _ | .jsr _ | .andImm _ _ _ | .ldr _ _ _ | .str _ _ _ | .ldi _ _
  | .sti _ _ | .lea _ _ => 0x0000#16

/-- The instruction this decoder reads from the table word `w` of `nbits` bits; the bits above `nbits` are zero. An
instruction is one word (R90), so there is nothing to lay out beyond it. -/
def decodeTableWord (nbits w : Nat) : Option Instr := some (decode (BitVec.ofNat 16 (w % 2 ^ nbits)))

end Sys2Proof
end

