-- ==== Sys2Proof/Config.lean ====
section
/-! DEFINITION. The named parameters the spec leaves open (00_scope.md R8) and the values `State.reset` takes for those
that a reset state needs. `BOOT_IMAGE`'s reference value is in Machine/BootImage.lean. -/

namespace Sys2Proof

/-- `INPUT` (R8, D9): the host's keyboard bytes, a finite or an infinite sequence. -/
inductive Input where
  /-- These bytes and no more, the first to be read at the head. -/
  | finite (bytes : List Byte)
  /-- A byte for every place from 0 on. -/
  | endless (byte : Nat → Byte)

/-- The parameters of a boot (R8): each is OPEN in 92_eei_decisions.md, so `Sys2Proof.Machine.boot` takes them as an
argument. -/
structure BootParams where
  /-- `RESET_PRIV` (D15): the privilege bit after reset; true is user mode. -/
  resetPriv : Bool
  /-- `RESET_GPR` (D16): R0 to R7 after reset. -/
  resetGpr : Vector Word 8
  /-- `BOOT_IMAGE` (D20): (address, word) pairs, installed in the order of the list. -/
  bootImage : List (Word × Word)
  /-- `INPUT` (D9): the host's keyboard bytes. -/
  input : Input

/-- The parameters of the assembler (R8): D35 and the opt-in symbol bound. -/
structure AsmParams where
  /-- `MAX_LEXEME` (R111): the number of characters of the longest accepted lexeme. -/
  maxLexeme : Nat
  /-- `SYMBOL_CAPACITY` (R8): none, the default, is an unbounded symbol table. -/
  symbolCapacity : Option Nat := none
  deriving DecidableEq, Repr

/-- DESIGN CHOICE (log 2): `RESET_PRIV` of `State.reset` is supervisor mode. -/
def Config.resetPriv : Bool := false

/-- DESIGN CHOICE (log 1): `RESET_GPR` of `State.reset` is eight zeros. -/
def Config.resetGpr : Vector Word 8 := Vector.replicate 8 0

/-- DESIGN CHOICE (log 3): the origin word of the object file that `State.reset` is booted from. -/
def Config.origin : Word := 0x3000

/-- DESIGN CHOICE (log 4): `INPUT` of `State.reset` is empty. -/
def Config.input : List Byte := []

end Sys2Proof
end

