-- ==== Sys2Proof/Machine/BootImage.lean ====
section
/-! DEFINITION. The reference `BOOT_IMAGE` (70_reset_and_hazards.md R226, R227): the trap vector table's six entries and the
six trap-service routines, word for word as the spec lists them. -/

namespace Sys2Proof.Machine

/-- The trap vector table entries of the reference image (R226). -/
def BootImage.vectors : List (Word × Word) :=
  [(0x0020, 0x0400), (0x0021, 0x0410), (0x0022, 0x0420), (0x0023, 0x0430), (0x0024, 0x0440), (0x0025, 0x0470)]

/-- GETC, at x0400 to x0402 (R227). -/
def BootImage.getcRoutine : List (Word × Word) :=
  [(0x0400, 0xA001), (0x0401, 0xC1C0), (0x0402, 0xFE02)]

/-- OUT, at x0410 to x0412 (R227). -/
def BootImage.outRoutine : List (Word × Word) :=
  [(0x0410, 0xB001), (0x0411, 0xC1C0), (0x0412, 0xFE06)]

/-- PUTS, at x0420 to x042C (R227). -/
def BootImage.putsRoutine : List (Word × Word) :=
  [(0x0420, 0x300A), (0x0421, 0x320A), (0x0422, 0x6200), (0x0423, 0x0403), (0x0424, 0xB205), (0x0425, 0x1021),
   (0x0426, 0x0FFB), (0x0427, 0x2003), (0x0428, 0x2203), (0x0429, 0xC1C0), (0x042A, 0xFE06), (0x042B, 0x0000),
   (0x042C, 0x0000)]

/-- IN, at x0430 to x0434 (R227). -/
def BootImage.inRoutine : List (Word × Word) :=
  [(0x0430, 0xA002), (0x0431, 0xB002), (0x0432, 0xC1C0), (0x0433, 0xFE02), (0x0434, 0xFE06)]

/-- PUTSP, at x0440 to x0469 (R227). -/
def BootImage.putspRoutine : List (Word × Word) :=
  [(0x0440, 0x3023), (0x0441, 0x3223), (0x0442, 0x3423), (0x0443, 0x3623), (0x0444, 0x3823), (0x0445, 0x3A23),
   (0x0446, 0x6200), (0x0447, 0x0412), (0x0448, 0x2419), (0x0449, 0x5442), (0x044A, 0x040F), (0x044B, 0xB415),
   (0x044C, 0x54A0), (0x044D, 0x16A1)] ++
  [(0x044E, 0x2814), (0x044F, 0x5A44), (0x0450, 0x0401), (0x0451, 0x1483), (0x0452, 0x16C3), (0x0453, 0x1904),
   (0x0454, 0x0BFA), (0x0455, 0x14A0), (0x0456, 0x0403), (0x0457, 0xB409), (0x0458, 0x1021), (0x0459, 0x0FEC),
   (0x045A, 0x2009), (0x045B, 0x2209)] ++
  [(0x045C, 0x2409), (0x045D, 0x2609), (0x045E, 0x2809), (0x045F, 0x2A09), (0x0460, 0xC1C0), (0x0461, 0xFE06),
   (0x0462, 0x00FF), (0x0463, 0x0100), (0x0464, 0x0000), (0x0465, 0x0000), (0x0466, 0x0000), (0x0467, 0x0000),
   (0x0468, 0x0000), (0x0469, 0x0000)]

/-- HALT, at x0470 to x0475 (R227). -/
def BootImage.haltRoutine : List (Word × Word) :=
  [(0x0470, 0xA003), (0x0471, 0x2203), (0x0472, 0x5001), (0x0473, 0xB000), (0x0474, 0xFFFE), (0x0475, 0x7FFF)]

/-- The whole reference image (R227). -/
def BootImage.reference : List (Word × Word) :=
  BootImage.vectors ++ BootImage.getcRoutine ++ BootImage.outRoutine ++ BootImage.putsRoutine ++
    BootImage.inRoutine ++ BootImage.putspRoutine ++ BootImage.haltRoutine

/-- The word an image holds at address `a`; zero where it holds none. -/
def BootImage.wordAt (image : List (Word × Word)) (a : Nat) : Word :=
  match image with
  | [] => 0
  | (k, w) :: rest => if k.toNat = a then w else BootImage.wordAt rest a

/-- The reset contents of memory (10_state.md R31): the reference image at x0020 to x0475, and zero everywhere else. -/
def BootImage.resetWord (a : Nat) : Word :=
  if 0x0020 ≤ a ∧ a ≤ 0x0475 then BootImage.wordAt BootImage.reference a else 0

end Sys2Proof.Machine
end

