-- ==== Sys2Proof/Machine/Memory.lean ====
section
/-! DEFINITION. The storage `mem` of 20_memory.md R50: 65536 locations of one 16-bit word, held as a list of (address,
word) pairs in one canonical form. The machine addresses whole words only (R51), so a cell is a word, not a byte (log 5). -/

namespace Sys2Proof.Machine

/-- One word of memory at an address. -/
abbrev Cell := Nat × Word

/-- The storage. An address that is not listed reads as `Memory.unlisted`. -/
abbrev Memory := List Cell

/-- What an unlisted address reads as: its reset contents, which are zero but for the reference boot image (R50,
10_state.md R31, 70_reset_and_hazards.md R227; log 6). -/
def Memory.unlisted (a : Nat) : Word := BootImage.resetWord a

/-- The canonical form: addresses strictly rising, none outside the address space, no entry equal to what
its address reads as when unlisted. -/
abbrev Memory.wf (m : Memory) : Prop :=
  m.Pairwise (fun c d => c.1 < d.1) ∧ ∀ c ∈ m, c.1 < 65536 ∧ c.2 ≠ Memory.unlisted c.1

/-- The word at address `a`. -/
def Memory.read (m : Memory) (a : Nat) : Word :=
  match m with
  | [] => Memory.unlisted a
  | (k, v) :: rest => if k = a then v else Memory.read rest a

/-- `m` with nothing listed at `a`. -/
def Memory.erase (m : Memory) (a : Nat) : Memory := m.filter (fun c => c.1 ≠ a)

/-- `m` with `(a, v)` placed before the first higher address. -/
def Memory.insert (m : Memory) (a : Nat) (v : Word) : Memory :=
  match m with
  | [] => [(a, v)]
  | (k, w) :: rest => if a < k then (a, v) :: (k, w) :: rest else (k, w) :: Memory.insert rest a v

/-- `mem[a] <- v`. Writing what an unlisted address reads as leaves `a` unlisted. -/
def Memory.write (m : Memory) (a : Nat) (v : Word) : Memory :=
  if v = Memory.unlisted a then Memory.erase m a else Memory.insert (Memory.erase m a) a v

/-- `m` with `words` written at `a`, `a + 1`, … (70_reset_and_hazards.md R225 step 2). -/
def Memory.loadWords (m : Memory) (a : Nat) (words : List Word) : Memory :=
  match words with
  | [] => m
  | w :: rest => Memory.loadWords (Memory.write m a w) (a + 1) rest

/-- `m` with each (address, word) pair of an image written, in order (70_reset_and_hazards.md R225 step 4). -/
def Memory.install (m : Memory) (image : List (Word × Word)) : Memory :=
  match image with
  | [] => m
  | (a, w) :: rest => Memory.install (Memory.write m a.toNat w) rest

/-- Memory at the start of boot: zero at every address (R50, 70_reset_and_hazards.md R225 step 1). An entry is listed where
the reset contents are not zero. -/
def Memory.zeroed : Memory := Memory.install [] (BootImage.reference.map fun c => (c.1, 0))

end Sys2Proof.Machine
end

