-- ==== Sys2Proof/Machine/PowerOn.lean ====
section
/-! DEFINITION. The power-on values of the device registers and the PSR (10_state.md R31, 70_reset_and_hazards.md R225
step 3), shared by `State.reset` and `boot`. -/

namespace Sys2Proof.Machine

/-- KBSR after boot (R31). -/
def PowerOn.kbsr : Word := 0x0000#16

/-- KBDR after boot (R31). -/
def PowerOn.kbdr : Word := 0x0000#16

/-- DSR after boot: the display is ready (R31). -/
def PowerOn.dsr : Word := 0x8000#16

/-- DDR after boot (R31). -/
def PowerOn.ddr : Word := 0x0000#16

/-- MCR after boot: the run bit is set (R31). -/
def PowerOn.mcr : Word := 0x8000#16

/-- The PSR after boot: `RESET_PRIV` in bit 15, Z set, every other bit 0 (R31). -/
def PowerOn.psr (resetPriv : Bool) : Word := BitVec.ofBool resetPriv ++ 0b000000000000010#15

end Sys2Proof.Machine
end

