-- ==== Sys2Proof/Machine/State.lean ====
section
/-! DEFINITION. The machine state, exactly the tuple of 10_state.md R20, the reasons a step can have no next state, and the
state after reset (R31). -/

namespace Sys2Proof.Machine

/-- The kinds of runtime error (60_exceptions.md R191). -/
inductive ErrorKind where
  /-- A fetched word has bits 15:12 = 1101 (43_system.md R182). -/
  | illegalOpcode
  /-- RTI was executed in user mode (43_system.md R181). -/
  | privilegeViolation
  deriving DecidableEq, Repr

/-- The run state (10_state.md R20, R33). -/
inductive Status where
  /-- From boot on, until the run ends. -/
  | running
  /-- A cycle found `MCR[15] = 0` (70_reset_and_hazards.md R236). -/
  | halted
  /-- A runtime error stopped the run (60_exceptions.md R190). -/
  | error (kind : ErrorKind)
  deriving DecidableEq, Repr

/-- The machine state (10_state.md R20). -/
structure State where
  /-- `x[0..7]`, the general registers R0 to R7 (R21). -/
  x : Vector Word 8
  /-- The program counter (R23). -/
  pc : Word
  /-- The processor status register (R25). -/
  psr : Word
  /-- The storage (20_memory.md R50). -/
  mem : Memory
  /-- Keyboard status register (20_memory.md R54). -/
  kbsr : Word
  /-- Keyboard data register (20_memory.md R54). -/
  kbdr : Word
  /-- Display status register (20_memory.md R54). -/
  dsr : Word
  /-- Display data register (20_memory.md R54). -/
  ddr : Word
  /-- Machine-control register; bit 15 is the run bit (R30). -/
  mcr : Word
  /-- The run state (R33). -/
  status : Status
  /-- The keyboard bytes not yet consumed, the next one first (R34). -/
  input : List Byte
  /-- The bytes written to the display so far, the earliest first (R34). -/
  output : List Byte
  deriving DecidableEq, Repr

/-- Why a step has no next state. -/
inductive Fault where
  /-- Raised by a data read of KBDR while the input is empty (20_memory.md R57): the core is blocked, the instruction counts
  as not started, and the same step runs in full once the host has supplied a byte. Safe: the spec gives no next state. -/
  | keyboardBlocked
  /-- Raised by `step` when `status` is not `running`: the run is over and no state leaves Halted or Error (10_state.md
  R33, 70_reset_and_hazards.md R236). Safe: the spec gives no next state. -/
  | runOver
  deriving DecidableEq, Repr

/-- Why an instruction has no meaning. -/
inductive Refusal where
  /-- The answer of an arm of `exec` whose instruction has no meaning yet; no arm gives it. Safe. -/
  | notModelled (mnemonic : String)
  deriving DecidableEq, Repr

/-- What executing one instruction, or one step, answers. -/
abbrev Result := Host.Outcome State Fault Refusal

/-- The machine right after reset (10_state.md R31, 70_reset_and_hazards.md R225): booted with the reference image, the
parameters of Config.lean, and an object file of its origin word alone (R231; log 3). Memory lists nothing: what it holds
then is what `Memory.unlisted` says. -/
def State.reset : State where
  x := Config.resetGpr
  pc := Config.origin
  psr := PowerOn.psr Config.resetPriv
  mem := []
  kbsr := PowerOn.kbsr
  kbdr := PowerOn.kbdr
  dsr := PowerOn.dsr
  ddr := PowerOn.ddr
  mcr := PowerOn.mcr
  status := .running
  input := Config.input
  output := []

end Sys2Proof.Machine
end

