-- ==== Sys2Proof/Machine/Flags.lean ====
section
/-! DEFINITION. The fields of the PSR, the condition codes and the ALU that computes them (10_state.md R25 to R28, R36). -/

namespace Sys2Proof.Machine

/-- The flags N:Z:P that `setcc` writes for the result `v` (R27). -/
def ccOf (v : Word) : BitVec 3 :=
  if v.getLsbD 15 then 0b100#3 else if v = 0#16 then 0b010#3 else 0b001#3

/-- `psr` with its bits 2:0 replaced (R27). -/
def withCc (psr : Word) (cc : BitVec 3) : Word := psr.extractLsb' 3 13 ++ cc

/-- `setcc(v)`: exactly one of N, Z, P is set, from `v`, and psr[15:3] stays (R27). -/
def setcc (v : Word) (s : State) : State := { s with psr := withCc s.psr (ccOf v) }

/-- `cc = psr[2:0]`, the flags N:Z:P (R26). -/
def State.cc (s : State) : BitVec 3 := s.psr.extractLsb' 0 3

/-- `psr[15]`, PRIV: true in user mode (R25, 60_exceptions.md R199). -/
def State.userMode (s : State) : Bool := s.psr.getLsbD 15

/-- `psr[10:8]`, PRIORITY, which has no function (R25). -/
def State.priority (s : State) : BitVec 3 := s.psr.extractLsb' 8 3

/-- BR's mask, in the order of the flags N:Z:P (R26, 30_encoding.md R96). -/
def branchMask (n z p : Bool) : BitVec 3 := BitVec.ofBool n ++ BitVec.ofBool z ++ BitVec.ofBool p

/-- BR is taken when a flag that its mask selects is set (30_encoding.md R96, 42_control.md R170). -/
def branchTaken (n z p : Bool) (s : State) : Bool := branchMask n z p &&& s.cc ≠ 0#3

/-- The operations of the ALU (R36). -/
inductive AluOp where
  | add
  | and
  | not
  | pass
  deriving DecidableEq, Repr

/-- The ALU's result (R36, 40_operate.md R143): addition modulo 2^16, bitwise AND, complement of `a`, or `a` itself. -/
def aluResult (op : AluOp) (a b : Word) : Word :=
  match op with
  | .add => a + b
  | .and => a &&& b
  | .not => ~~~a
  | .pass => a

/-- The ALU as a block: the result and the condition codes of the result; there is no other flag (R36). -/
def alu (op : AluOp) (a b : Word) : Word × BitVec 3 := (aluResult op a b, ccOf (aluResult op a b))

end Sys2Proof.Machine
end

