-- ==== Sys2Proof/Machine/Ops.lean ====
section
/-! DEFINITION. The named operations over registers, memory and devices: the address decoder and the accessor of
20_memory.md R53 to R61, taking a runtime error (60_exceptions.md R190), entering a trap (R196) and the return from one by
RTI (R197), and the parts of one cycle of the run loop (70_reset_and_hazards.md R236). -/

namespace Sys2Proof.Machine

/-- What an address selects (20_memory.md R53). -/
inductive Target where
  | kbsr
  | kbdr
  | dsr
  | ddr
  | mcr
  | ram
  deriving DecidableEq, Repr

/-- The address decoder (20_memory.md R53): five device registers, and RAM everywhere else. -/
def select (a : Word) : Target :=
  if a = 0xFE00#16 then .kbsr
  else if a = 0xFE02#16 then .kbdr
  else if a = 0xFE04#16 then .dsr
  else if a = 0xFE06#16 then .ddr
  else if a = 0xFFFE#16 then .mcr
  else .ram

/-- `x[r]` (00_scope.md R11). -/
def State.reg (s : State) (r : RegIx) : Word := s.x.get r

/-- `x[r] <- v` (00_scope.md R11); no register is hardwired (10_state.md R21). -/
def State.setReg (s : State) (r : RegIx) (v : Word) : State := { s with x := s.x.set r v }

/-- `pc <- v` (00_scope.md R11). -/
def State.setPc (s : State) (v : Word) : State := { s with pc := v }

/-- `Fetch(a)` (20_memory.md R61): the RAM word or the selected device register, with no side effect. -/
def fetch (a : Word) (s : State) : Word :=
  match select a with
  | .kbsr => s.kbsr
  | .kbdr => s.kbdr
  | .dsr => s.dsr
  | .ddr => s.ddr
  | .mcr => s.mcr
  | .ram => s.mem.read a.toNat

/-- `MemRead(a, 1)` (20_memory.md R57): the word and the state after the access. A read of KBDR takes one byte of the input
into KBDR, and blocks while there is none. -/
def memRead (a : Word) (s : State) : Except Fault (Word × State) :=
  match select a with
  | .kbsr => .ok (s.kbsr, s)
  | .kbdr =>
    match s.input with
    | [] => .error .keyboardBlocked
    | c :: rest => .ok (zext16 c, { s with kbdr := zext16 c, input := rest })
  | .dsr => .ok (s.dsr, s)
  | .ddr => .ok (s.ddr, s)
  | .mcr => .ok (s.mcr, s)
  | .ram => .ok (s.mem.read a.toNat, s)

/-- `MemWrite(a, 1, v)` (20_memory.md R58): a write of DDR also sends `v[7:0]` to the display. -/
def memWrite (a v : Word) (s : State) : State :=
  match select a with
  | .kbsr => { s with kbsr := v }
  | .kbdr => { s with kbdr := v }
  | .dsr => { s with dsr := v }
  | .ddr => { s with ddr := v, output := s.output ++ [v.extractLsb' 0 8] }
  | .mcr => { s with mcr := v }
  | .ram => { s with mem := s.mem.write a.toNat v }

/-- Reads through the accessor and goes on with the word and the state after the access; a blocked read leaves the whole
instruction not started (20_memory.md R57). -/
def readThen (a : Word) (s : State) (k : Word → State → Result) : Result :=
  match memRead a s with
  | .ok (v, t) => k v t
  | .error f => .fault f

/-- `x[r] <- v; setcc(v)`: how every operate, load and effective-address instruction ends (10_state.md R28). -/
def writeResult (r : RegIx) (v : Word) (s : State) : State := setcc v (s.setReg r v)

/-- `raise E(A)` (60_exceptions.md R190): the run ends with the error's kind, and nothing but `status` is written. The pc
was incremented at fetch, so it stays at A + 1. -/
def raiseError (kind : ErrorKind) (s : State) : Result := .next { s with status := .error kind }

/-- `x[7] <- pc`, the link of JSR, JSRR and TRAP (42_control.md R174). -/
def State.link (s : State) : State := s.setReg 7 s.pc

/-- Trap entry (60_exceptions.md R196): the return address goes to R7, and control to the address that the trap vector
table holds at `entry`; no mode, mask or stack changes. -/
def enterTrap (entry : Word) (s : State) : Result :=
  readThen entry s.link fun target t => .next (t.setPc target)

/-- One pop of RTI: the word at R6 goes on, and R6 moves up by one (43_system.md R181). -/
def popThen (s : State) (k : Word → State → Result) : Result :=
  readThen (s.reg 6) s k

/-- `x[6] <- x[6] + 1`. -/
def State.bumpStack (s : State) : State := s.setReg 6 (s.reg 6 + 1#16)

/-- The return of RTI (43_system.md R181, 60_exceptions.md R197): PC, then all of the PSR, from the stack at R6. -/
def returnFromTrap (s : State) : Result :=
  popThen s fun target t =>
    let s1 := (t.setPc target).bumpStack
    popThen s1 fun status u => .next (State.bumpStack { u with psr := status })

/-- The run bit `MCR[15]` (10_state.md R30). -/
def State.runBit (s : State) : Bool := s.mcr.getLsbD 15

/-- The end of a run by the halt check (70_reset_and_hazards.md R236). -/
def State.halt (s : State) : State := { s with status := .halted }

/-- The instruction that the word at the pc decodes to (70_reset_and_hazards.md R236). -/
def State.current (s : State) : Instr := decode (fetch s.pc s)

/-- `pc <- A + 1`, modulo 2^16, before the instruction executes (10_state.md R23, R24). -/
def State.advance (s : State) : State := s.setPc (s.pc + 1#16)

/-- The host supplies keyboard bytes, at any time (20_memory.md R69). -/
def State.supply (s : State) (bytes : List Byte) : State := { s with input := s.input ++ bytes }

/-- `s` with `v` where `Fetch(a)` reads: a device register is set with no display output and no input consumed. -/
def placeFetched (a v : Word) (s : State) : State :=
  match select a with
  | .kbsr => { s with kbsr := v }
  | .kbdr => { s with kbdr := v }
  | .dsr => { s with dsr := v }
  | .ddr => { s with ddr := v }
  | .mcr => { s with mcr := v }
  | .ram => { s with mem := s.mem.write a.toNat v }

/-- `s` running, its run bit set, with `v` as the word that the next cycle fetches. -/
def readyToFetch (v : Word) (s : State) : State :=
  placeFetched s.pc v { s with status := .running, mcr := s.mcr ||| 0x8000#16 }

/-- The next state of an answer, if it is one. -/
def nextState : Result → Option State
  | .next s => some s
  | .fault _ => none
  | .refused _ => none

/-- The fault of an answer, if it is one. -/
def faultOf : Result → Option Fault
  | .next _ => none
  | .fault f => some f
  | .refused _ => none

end Sys2Proof.Machine
end

