-- ==== Sys2Proof/Machine/Operands.lean ====
section
/-! DEFINITION. The operand forms (30_encoding.md R94, R95, 41_data_movement.md R157). Offsets count words, and every sum is
modulo 2^16 (10_state.md R24). The state is the one the instruction executes in, whose pc is A + 1. -/

namespace Sys2Proof.Machine

/-- The immediate operand of ADD and AND: `sext_16(imm5)` (R95). -/
def immediate (imm : BitVec 5) : Word := sext16 imm

/-- The PC-relative address `pc + sext_16(PCoffset9)` (R95). -/
def pcRelative9 (off : BitVec 9) (s : State) : Word := s.pc + sext16 off

/-- The PC-relative address `pc + sext_16(PCoffset11)` (R95). -/
def pcRelative11 (off : BitVec 11) (s : State) : Word := s.pc + sext16 off

/-- The address `x[BaseR] + sext_16(offset6)` (R95). -/
def basePlusOffset (base : RegIx) (off : BitVec 6) (s : State) : Word := s.reg base + sext16 off

/-- The trap vector table address `zext_16(trapvect8)` (R95, 20_memory.md R64). -/
def trapEntry (vect : BitVec 8) : Word := zext16 vect

end Sys2Proof.Machine
end

