-- ==== Sys2Proof/Machine/Control.lean ====
section
/-! DEFINITION. Branches, jumps and calls (42_control.md). There is no delay slot. -/

namespace Sys2Proof.Machine

/-- BR (R170): a branch that is not taken changes nothing, so pc stays at A + 1. -/
def execBr (n z p : Bool) (off : BitVec 9) (s : State) : Result :=
  .next (if branchTaken n z p s then s.setPc (pcRelative9 off s) else s)

/-- JMP (R171). -/
def execJmp (base : RegIx) (s : State) : Result := .next (s.setPc (s.reg base))

/-- RET (R171): JMP with BaseR = R7. -/
def execRet (s : State) : Result := .next (s.setPc (s.reg 7))

/-- JSR (R172): R7 receives A + 1, and the target is relative to A + 1. -/
def execJsr (off : BitVec 11) (s : State) : Result := .next (s.link.setPc (pcRelative11 off s))

/-- JSRR (R173): the base register is read after R7 is written, so JSRR R7 continues at A + 1. -/
def execJsrr (base : RegIx) (s : State) : Result := .next (s.link.setPc (s.link.reg base))

end Sys2Proof.Machine
end

