-- ==== Sys2Proof/Machine/DataMovement.lean ====
section
/-! DEFINITION. Loads, stores and LEA (41_data_movement.md). Every access goes through the accessor, so a device address
reaches the device with its side effects. -/

namespace Sys2Proof.Machine

/-- A load from address `a`: `v <- MemRead(a, 1); x[dr] <- v; setcc(v)`. -/
def loadFrom (a : Word) (dr : RegIx) (s : State) : Result :=
  readThen a s fun v t => .next (writeResult dr v t)

/-- LD (R150). -/
def execLd (dr : RegIx) (off : BitVec 9) (s : State) : Result := loadFrom (pcRelative9 off s) dr s

/-- LDI (R151): the PC-relative word is the address of the operand. -/
def execLdi (dr : RegIx) (off : BitVec 9) (s : State) : Result :=
  readThen (pcRelative9 off s) s fun p t => loadFrom p dr t

/-- LDR (R152): the base is read before DR is written. -/
def execLdr (dr base : RegIx) (off : BitVec 6) (s : State) : Result := loadFrom (basePlusOffset base off s) dr s

/-- LEA (R153): the address itself, with no access. -/
def execLea (dr : RegIx) (off : BitVec 9) (s : State) : Result :=
  .next (writeResult dr (aluResult .pass (pcRelative9 off s) 0#16) s)

/-- ST (R154). -/
def execSt (sr : RegIx) (off : BitVec 9) (s : State) : Result :=
  .next (memWrite (pcRelative9 off s) (s.reg sr) s)

/-- STI (R155): the pointer is read through the accessor, and the write goes where it points. -/
def execSti (sr : RegIx) (off : BitVec 9) (s : State) : Result :=
  readThen (pcRelative9 off s) s fun p t => .next (memWrite p (t.reg sr) t)

/-- STR (R156). -/
def execStr (sr base : RegIx) (off : BitVec 6) (s : State) : Result :=
  .next (memWrite (basePlusOffset base off s) (s.reg sr) s)

end Sys2Proof.Machine
end

