-- ==== Sys2Proof/Machine/Operate.lean ====
section
/-! DEFINITION. The operate instructions ADD, AND and NOT (40_operate.md). Sources are read before DR is written. -/

namespace Sys2Proof.Machine

/-- DR receives the ALU's result, and the condition codes follow it (10_state.md R28, R36). -/
def operate (op : AluOp) (dr : RegIx) (a b : Word) (s : State) : Result :=
  .next (writeResult dr (aluResult op a b) s)

/-- ADD, register form (R140). -/
def execAddReg (dr sr1 sr2 : RegIx) (s : State) : Result := operate .add dr (s.reg sr1) (s.reg sr2) s

/-- ADD, immediate form (R140). -/
def execAddImm (dr sr1 : RegIx) (imm : BitVec 5) (s : State) : Result :=
  operate .add dr (s.reg sr1) (immediate imm) s

/-- AND, register form (R141). -/
def execAndReg (dr sr1 sr2 : RegIx) (s : State) : Result := operate .and dr (s.reg sr1) (s.reg sr2) s

/-- AND, immediate form (R141). -/
def execAndImm (dr sr1 : RegIx) (imm : BitVec 5) (s : State) : Result :=
  operate .and dr (s.reg sr1) (immediate imm) s

/-- NOT (R142); the ALU ignores its second operand. -/
def execNot (dr sr : RegIx) (s : State) : Result := operate .not dr (s.reg sr) 0#16 s

end Sys2Proof.Machine
end

