-- ==== Sys2Proof/Machine/System.lean ====
section
/-! DEFINITION. TRAP, RTI and the reserved opcode (43_system.md). -/

namespace Sys2Proof.Machine

/-- TRAP (R180): the trap-vector dispatcher. -/
def execTrap (vect : BitVec 8) (s : State) : Result := enterTrap (trapEntry vect) s

/-- RTI (R181): a privilege violation in user mode, before any access; otherwise the return. -/
def execRti (s : State) : Result :=
  if s.userMode then raiseError .privilegeViolation s else returnFromTrap s

/-- The reserved opcode (R182): an illegal opcode error, always. -/
def execReserved (s : State) : Result := raiseError .illegalOpcode s

end Sys2Proof.Machine
end

