-- ==== Sys2Proof/Machine/Step.lean ====
section
/-! DEFINITION. One iteration of the run loop (70_reset_and_hazards.md R236). -/

namespace Sys2Proof.Machine

/-- One iteration of the run loop (R236, 60_exceptions.md R193): the halt check, then fetch and the increment of the pc,
then the instruction. A run that is over has no next state (10_state.md R33). -/
def step (s : State) : Host.Outcome State Fault Refusal :=
  match s.status with
  | .running => if s.runBit then exec s.current s.advance else .next s.halt
  | .halted => .fault .runOver
  | .error _ => .fault .runOver

/-- `s` with the table word `w` of `nbits` bits where `step` fetches its next instruction. -/
def State.withFetchWord (s : State) (nbits w : Nat) : State := readyToFetch (BitVec.ofNat 16 (w % 2 ^ nbits)) s

end Sys2Proof.Machine
end

