-- ==== Sys2Proof/Machine/AsmLex.lean ====
section
/-! DEFINITION. The assembler's tokens (30_encoding.md R110 to R114): the source text is a list of bytes. -/

namespace Sys2Proof.Machine

/-- The kinds of assembler error (R121). -/
inductive AsmErrorKind where
  /-- LexicalError (R111). -/
  | lexicalError
  /-- SyntaxError (R110, R115, R117, R118). -/
  | syntaxError
  /-- SymbolError, with the symbol's name (R120). -/
  | symbolError (name : List Byte)
  /-- EncodingRangeError (R119, R122). -/
  | encodingRangeError
  deriving DecidableEq, Repr

/-- An assembler error carries the source line (R111, R121). -/
structure AsmError where
  line : Nat
  kind : AsmErrorKind
  deriving DecidableEq, Repr

/-- The bytes of a spelling. -/
def bytesOf (s : String) : List Byte := s.toList.map fun c => BitVec.ofNat 8 c.toNat

/-- The byte of one character. -/
def byteOf (c : Char) : Byte := BitVec.ofNat 8 c.toNat

/-- A token (R111); end of input is the end of the list. -/
inductive Token where
  /-- A bare word: a mnemonic or a label. -/
  | word (text : List Byte)
  /-- A register (R112). -/
  | reg (r : RegIx)
  /-- An immediate (R113); a hexadecimal one is a non-negative number. -/
  | imm (value : Int)
  /-- A string, its escapes replaced (R114). -/
  | str (text : List Byte)
  | comma
  /-- A directive, without its dot and in capitals (D30). -/
  | directive (name : List Byte)
  deriving DecidableEq, Repr

/-- Decimal digits. -/
def isDigit (c : Byte) : Bool := byteOf '0' ≤ c && c ≤ byteOf '9'

/-- Capital letters. -/
def isCapital (c : Byte) : Bool := byteOf 'A' ≤ c && c ≤ byteOf 'Z'

/-- Small letters. -/
def isSmall (c : Byte) : Bool := byteOf 'a' ≤ c && c ≤ byteOf 'z'

/-- A letter in capitals, any other byte as it is. -/
def capital (c : Byte) : Byte := if isSmall c then c - 32 else c

/-- Characters of a bare word, register, immediate or directive (DESIGN CHOICE, log 13). -/
def isWordChar (c : Byte) : Bool := isDigit c || isCapital c || isSmall c || c == byteOf '_'

/-- White space, newlines among it, is insignificant (R110). DESIGN CHOICE (log 13): the rule names no bytes; these are the
space and 9 to 13, tab to carriage return. -/
def isSpace (c : Byte) : Bool := c == 32 || (9 ≤ c && c ≤ 13)

/-- The value of a hexadecimal digit, if `c` is one. -/
def hexDigit (c : Byte) : Option Nat :=
  if isDigit c then some (c.toNat - 48)
  else if byteOf 'A' ≤ capital c && capital c ≤ byteOf 'F' then some ((capital c).toNat - 55)
  else none

/-- The value of a digit below `base`, if `c` is one. -/
def digitValue (base : Nat) (c : Byte) : Option Nat :=
  match hexDigit c with
  | some d => if d < base then some d else none
  | none => none

/-- The number that `digits` spell after the value `acc`, or none if one of them is no digit. -/
def numeralFrom (base acc : Nat) (digits : List Byte) : Option Nat :=
  match digits with
  | [] => some acc
  | c :: rest =>
    match digitValue base c with
    | some d => numeralFrom base (acc * base + d) rest
    | none => none

/-- The number a non-empty string of digits spells. -/
def numeral (base : Nat) (digits : List Byte) : Option Nat :=
  match digits with
  | [] => none
  | c :: rest => numeralFrom base 0 (c :: rest)

/-- The register that `text` names: `R` or `r` and a digit 0 to 7 (R112). -/
def registerOf (text : List Byte) : Option RegIx :=
  match text with
  | [c, d] =>
    if capital c = byteOf 'R' then
      match digitValue 8 d with
      | some n => some (Fin.ofNat 8 n)
      | none => none
    else none
  | _ => none

/-- The value of a hexadecimal immediate `x…` or `X…` (R113). -/
def hexOf (text : List Byte) : Option Nat :=
  match text with
  | c :: digits => if capital c = byteOf 'X' then numeral 16 digits else none
  | [] => none

/-- The token of a lexeme of word characters: a register, a hexadecimal or bare decimal immediate (R113), or a bare word;
a lexeme that begins with a digit and is no number is no token (DESIGN CHOICE, log 13). -/
def wordToken (text : List Byte) : Option Token :=
  match registerOf text with
  | some r => some (.reg r)
  | none =>
    match hexOf text with
    | some n => some (.imm n)
    | none =>
      match text with
      | [] => none
      | c :: _ =>
        if isDigit c then
          match numeral 10 text with
          | some n => some (.imm n)
          | none => none
        else some (.word text)

/-- The token of the text after a `#`: a signed decimal (R113). DESIGN CHOICE (log 13): any other text there, the empty one
too, is no token and so a LexicalError; R111 does not name it among the causes of one. -/
def hashToken (text : List Byte) : Option Token :=
  match text with
  | [] => none
  | c :: rest =>
    if c = byteOf '-' then
      match numeral 10 rest with
      | some n => some (.imm (-(n : Int)))
      | none => none
    else
      match numeral 10 text with
      | some n => some (.imm n)
      | none => none

/-- The byte of an escape in a string (R114, D32). -/
def escapeByte (c : Byte) : Option Byte :=
  if c = byteOf 'n' then some 10
  else if c = byteOf 'r' then some 13
  else if c = byteOf 't' then some 9
  else if c = byteOf 'v' then some 11
  else none

/-- What the lexer is reading. A lexeme's bytes are kept last first. -/
inductive LexMode where
  | idle
  | word (rev : List Byte)
  | hash (rev : List Byte)
  | dot (rev : List Byte)
  | str (rev : List Byte)
  | escape (rev : List Byte)
  | comment
  /-- After `.END`: the rest of the text is not read (R110). -/
  | done
  deriving DecidableEq, Repr

/-- The tokens that one byte completes, and what the lexer reads from there on; none is a LexicalError. -/
abbrev LexAnswer := Option (List Token × LexMode)

/-- A byte between lexemes. -/
def lexIdle (c : Byte) : LexAnswer :=
  if isSpace c then some ([], .idle)
  else if c = byteOf ';' then some ([], .comment)
  else if c = byteOf ',' then some ([.comma], .idle)
  else if c = byteOf '"' then some ([], .str [])
  else if c = byteOf '#' then some ([], .hash [])
  else if c = byteOf '.' then some ([], .dot [])
  else if isWordChar c then some ([], .word [c])
  else none

/-- The token that ends in `mode`, if `mode` is reading a lexeme that a delimiter ends. DESIGN CHOICE (log 13): a dot with no
name after it is a LexicalError; R111 does not name it among the causes of one. -/
def lexFinish (maxLexeme : Nat) (mode : LexMode) : LexAnswer :=
  match mode with
  | .word rev =>
    if rev.length ≤ maxLexeme then (wordToken rev.reverse).map fun t => ([t], .idle) else none
  | .hash rev =>
    if rev.length ≤ maxLexeme then (hashToken rev.reverse).map fun t => ([t], .idle) else none
  | .dot rev =>
    if rev.length ≤ maxLexeme ∧ rev ≠ [] then
      let name := rev.reverse.map capital
      some ([.directive name], if name = bytesOf "END" then .done else .idle)
    else none
  | .idle | .comment => some ([], .idle)
  | .str _ | .escape _ => none
  | .done => some ([], .done)

/-- A delimiter ends the lexeme of `mode` and is itself read between lexemes. DESIGN CHOICE (log 13): every byte that is no
word character is a delimiter, so that a token may follow another with no white space; R113 does not list the delimiters. -/
def lexDelimiter (maxLexeme : Nat) (mode : LexMode) (c : Byte) : LexAnswer :=
  match lexFinish maxLexeme mode with
  | none => none
  | some (toks, .done) => some (toks, .done)
  | some (toks, _) => (lexIdle c).map fun (more, next) => (toks ++ more, next)

/-- One byte of the source text. DESIGN CHOICE (log 13): a comment runs to byte 10, and a carriage return alone does not end
it; R110 names no byte. -/
def lexByte (maxLexeme : Nat) (mode : LexMode) (c : Byte) : LexAnswer :=
  match mode with
  | .idle => lexIdle c
  | .word rev => if isWordChar c then some ([], .word (c :: rev)) else lexDelimiter maxLexeme mode c
  | .hash rev =>
    if isWordChar c ∨ (c = byteOf '-' ∧ rev = []) then some ([], .hash (c :: rev)) else lexDelimiter maxLexeme mode c
  | .dot rev => if isWordChar c then some ([], .dot (c :: rev)) else lexDelimiter maxLexeme mode c
  | .str rev =>
    if c = byteOf '"' then (if rev.length ≤ maxLexeme then some ([.str rev.reverse], .idle) else none)
    else if c = byteOf '\\' then some ([], .escape rev)
    else some ([], .str (c :: rev))
  | .escape rev => (escapeByte c).map fun b => ([], .str (b :: rev))
  | .comment => if c = 10 then some ([], .idle) else some ([], .comment)
  | .done => some ([], .done)

/-- The tokens of the source text from line `line` on, each with its line. DESIGN CHOICE (log 13): byte 10 ends a line; a token
carries the line of the byte that completes it, and a LexicalError the line where reading fails, which for an unterminated
string is the last line of the text and not the string's first (R111 names neither). -/
def lexFrom (maxLexeme : Nat) (mode : LexMode) (line : Nat) (text : List Byte) : Except AsmError (List (Nat × Token)) :=
  match text with
  | [] =>
    match lexFinish maxLexeme mode with
    | none => .error ⟨line, .lexicalError⟩
    | some (toks, _) => .ok (toks.map fun t => (line, t))
  | c :: rest =>
    match lexByte maxLexeme mode c with
    | none => .error ⟨line, .lexicalError⟩
    | some (toks, next) =>
      match lexFrom maxLexeme next (if c = 10 then line + 1 else line) rest with
      | .error e => .error e
      | .ok more => .ok ((toks.map fun t => (line, t)) ++ more)

end Sys2Proof.Machine
end

