-- ==== Sys2Proof/Machine/AsmParse.lean ====
section
/-! DEFINITION. The assembler's first pass (30_encoding.md R110, R115 to R118, R120): from tokens to a list of items, each at
its location counter, and the symbol table. -/

namespace Sys2Proof.Machine

/-- The instructions whose operand is a register and a label. -/
inductive PcrKind where
  | ld
  | ldi
  | lea
  | st
  | sti
  deriving DecidableEq, Repr

/-- A mnemonic of the Instruction Table, with its fixed attributes (R115, R116). -/
inductive Mnemonic where
  | add
  | and
  | not
  | br (n z p : Bool)
  | pcr (kind : PcrKind)
  | ldr
  | str
  | jmp
  | ret
  | jsr
  | jsrr
  | rti
  | trap
  /-- GETC, OUT, PUTS, IN, PUTSP, HALT: TRAP with a fixed vector. -/
  | trapTo (vect : BitVec 8)
  deriving DecidableEq, Repr

/-- The Instruction Table's spellings, in capitals (R115, R116). -/
def mnemonicTable : List (String × Mnemonic) :=
  [("ADD", .add), ("AND", .and), ("NOT", .not), ("BR", .br true true true), ("BRN", .br true false false),
   ("BRZ", .br false true false), ("BRP", .br false false true), ("BRNZ", .br true true false),
   ("BRNP", .br true false true), ("BRZP", .br false true true), ("BRNZP", .br true true true)] ++
  [("LD", .pcr .ld), ("LDI", .pcr .ldi), ("LEA", .pcr .lea), ("ST", .pcr .st), ("STI", .pcr .sti), ("LDR", .ldr),
   ("STR", .str), ("JMP", .jmp), ("RET", .ret), ("JSR", .jsr), ("JSRR", .jsrr), ("RTI", .rti), ("TRAP", .trap)] ++
  [("GETC", .trapTo 0x20), ("OUT", .trapTo 0x21), ("PUTS", .trapTo 0x22), ("IN", .trapTo 0x23),
   ("PUTSP", .trapTo 0x24), ("HALT", .trapTo 0x25)]

/-- The mnemonic that a bare word spells, in any case of letters (D30). -/
def mnemonicOf (text : List Byte) : Option Mnemonic :=
  match mnemonicTable.find? fun row => bytesOf row.1 = text.map capital with
  | some row => some row.2
  | none => none

/-- What an item occupies; operands that the encoder checks are as written. -/
inductive Body where
  /-- An instruction with no operand left to resolve. -/
  | plain (i : Instr)
  /-- ADD or AND with an immediate. -/
  | opImm (isAdd : Bool) (dr sr1 : RegIx) (value : Int)
  /-- LDR or STR. -/
  | baseOffset (isLoad : Bool) (r base : RegIx) (value : Int)
  | br (n z p : Bool) (label : List Byte)
  | pcr (kind : PcrKind) (r : RegIx) (label : List Byte)
  | jsr (label : List Byte)
  | trap (value : Int)
  /-- `.FILL`. -/
  | fill (value : Int)
  /-- `.BLKW n`. -/
  | blkw (n : Nat)
  /-- `.STRINGZ`. -/
  | stringz (text : List Byte)
  deriving DecidableEq, Repr

/-- The slots a body occupies (R117). -/
def Body.slots : Body → Nat
  | .blkw n => n
  | .stringz text => text.length + 1
  | .plain _ | .opImm _ _ _ _ | .baseOffset _ _ _ _ | .br _ _ _ _ | .pcr _ _ _ | .jsr _ | .trap _ | .fill _ => 1

/-- The label a body refers to. -/
def Body.label : Body → Option (List Byte)
  | .br _ _ _ l | .pcr _ _ l | .jsr l => some l
  | .plain _ | .opImm _ _ _ _ | .baseOffset _ _ _ _ | .trap _ | .fill _ | .blkw _ | .stringz _ => none

/-- A body at its location counter, with its source line. -/
structure Item where
  line : Nat
  address : Nat
  body : Body
  deriving DecidableEq, Repr

/-- The symbol table: a name and its value, none while it is unresolved (R118). -/
abbrev Symbols := List (List Byte × Option Nat)

/-- The entry of a name. -/
def Symbols.entry (t : Symbols) (name : List Byte) : Option (Option Nat) :=
  match t.find? fun e => e.1 = name with
  | some e => some e.2
  | none => none

/-- The table with one more name; none if a configured capacity is exhausted (R8). -/
def Symbols.add (capacity : Option Nat) (t : Symbols) (name : List Byte) (value : Option Nat) : Option Symbols :=
  match capacity with
  | some c => if t.length < c then some (t ++ [(name, value)]) else none
  | none => some (t ++ [(name, value)])

/-- A name is mentioned: it is declared, unresolved, if it is new (R118). -/
def Symbols.mention (capacity : Option Nat) (t : Symbols) (name : List Byte) : Option Symbols :=
  match t.entry name with
  | some _ => some t
  | none => t.add capacity name none

/-- A label is bound to a value; a second definition is an error, whatever its value (R120). -/
def Symbols.define (capacity : Option Nat) (t : Symbols) (name : List Byte) (value : Nat) : Option Symbols :=
  match t.entry name with
  | some (some _) => none
  | some none => some (t.map fun e => if e.1 = name then (name, some value) else e)
  | none => t.add capacity name (some value)

/-- Tokens with their source lines. -/
abbrev Tokens := List (Nat × Token)

/-- The label operand spelled by a bare word: a mnemonic is no label (R115), and in the place of one it is a SyntaxError
(DESIGN CHOICE, log 13). -/
def labelOf (text : List Byte) : Option (List Byte) :=
  match mnemonicOf text with
  | some _ => none
  | none => some text

/-- The operands of a mnemonic, in its fixed arity (R115): the body and the tokens after it; none is a SyntaxError. -/
def parseOperands (m : Mnemonic) (toks : Tokens) : Option (Body × Tokens) :=
  match m with
  | .add =>
    match toks with
    | (_, .reg d) :: (_, .comma) :: (_, .reg a) :: (_, .comma) :: (_, .reg b) :: rest => some (.plain (.addReg d a b), rest)
    | (_, .reg d) :: (_, .comma) :: (_, .reg a) :: (_, .comma) :: (_, .imm v) :: rest => some (.opImm true d a v, rest)
    | _ => none
  | .and =>
    match toks with
    | (_, .reg d) :: (_, .comma) :: (_, .reg a) :: (_, .comma) :: (_, .reg b) :: rest => some (.plain (.andReg d a b), rest)
    | (_, .reg d) :: (_, .comma) :: (_, .reg a) :: (_, .comma) :: (_, .imm v) :: rest => some (.opImm false d a v, rest)
    | _ => none
  | .not =>
    match toks with
    | (_, .reg d) :: (_, .comma) :: (_, .reg a) :: rest => some (.plain (.not d a), rest)
    | _ => none
  | .br n z p =>
    match toks with
    | (_, .word l) :: rest => (labelOf l).map fun l => (.br n z p l, rest)
    | _ => none
  | .pcr kind =>
    match toks with
    | (_, .reg r) :: (_, .comma) :: (_, .word l) :: rest => (labelOf l).map fun l => (.pcr kind r l, rest)
    | _ => none
  | .ldr =>
    match toks with
    | (_, .reg d) :: (_, .comma) :: (_, .reg b) :: (_, .comma) :: (_, .imm v) :: rest => some (.baseOffset true d b v, rest)
    | _ => none
  | .str =>
    match toks with
    | (_, .reg d) :: (_, .comma) :: (_, .reg b) :: (_, .comma) :: (_, .imm v) :: rest => some (.baseOffset false d b v, rest)
    | _ => none
  | .jmp =>
    match toks with
    | (_, .reg b) :: rest => some (.plain (jumpVia b), rest)
    | _ => none
  | .jsr =>
    match toks with
    | (_, .word l) :: rest => (labelOf l).map fun l => (.jsr l, rest)
    | _ => none
  | .jsrr =>
    match toks with
    | (_, .reg b) :: rest => some (.plain (.jsrr b), rest)
    | _ => none
  | .trap =>
    match toks with
    | (_, .imm v) :: rest => some (.trap v, rest)
    | _ => none
  | .ret => some (.plain .ret, toks)
  | .rti => some (.plain .rti, toks)
  | .trapTo vect => some (.plain (.trap vect), toks)

/-- The operand of a directive that occupies slots (R117): the body and the tokens after it. DESIGN CHOICE (log 13): a negative
`.BLKW`, an EncodingRangeError (R119), is found here, in the first pass. -/
def parseDirective (name : List Byte) (toks : Tokens) : Except AsmErrorKind (Body × Tokens) :=
  if name = bytesOf "FILL" then
    match toks with
    | (_, .imm v) :: rest => .ok (.fill v, rest)
    | _ => .error .syntaxError
  else if name = bytesOf "BLKW" then
    match toks with
    | (_, .imm v) :: rest => if v < 0 then .error .encodingRangeError else .ok (.blkw v.toNat, rest)
    | _ => .error .syntaxError
  else if name = bytesOf "STRINGZ" then
    match toks with
    | (_, .str s) :: rest => .ok (.stringz s, rest)
    | _ => .error .syntaxError
  else .error .syntaxError

/-- The first pass's result: the items in order, the symbol table and the location counter at the end. -/
structure Parsed where
  items : List Item
  symbols : Symbols
  counter : Nat
  deriving DecidableEq, Repr

/-- One item is placed at the location counter, and its label is mentioned (R117, R118). -/
def Parsed.place (capacity : Option Nat) (p : Parsed) (line : Nat) (body : Body) : Except AsmError Parsed :=
  let placed (symbols : Symbols) : Parsed :=
    { items := p.items ++ [⟨line, p.counter, body⟩], symbols := symbols, counter := p.counter + body.slots }
  match body.label with
  | none => .ok (placed p.symbols)
  | some l =>
    match p.symbols.mention capacity l with
    | some symbols => .ok (placed symbols)
    | none => .error ⟨line, .symbolError l⟩

/-- A bare word that is no mnemonic is bound as a label at the location counter (R115, R120). -/
def Parsed.bind (capacity : Option Nat) (p : Parsed) (line : Nat) (label : List Byte) : Except AsmError Parsed :=
  match p.symbols.define capacity label p.counter with
  | some symbols => .ok { p with symbols := symbols }
  | none => .error ⟨line, .symbolError label⟩

/-- The units after `.ORIG` (R110): labels, mnemonics and directives, up to `.END` or the end of the text (log 13). Each
unit takes a token at least, so a fuel of the number of tokens is enough. DESIGN CHOICE (log 13): an error of a unit carries
the line of its mnemonic, directive or label, wherever its operands stand. -/
def parseUnits (fuel : Nat) (capacity : Option Nat) (p : Parsed) (toks : Tokens) : Except AsmError Parsed :=
  match fuel, toks with
  | _, [] => .ok p
  | 0, (line, _) :: _ => .error ⟨line, .syntaxError⟩
  | fuel + 1, (line, tok) :: rest =>
    match tok with
    | .word text =>
      match mnemonicOf text with
      | some m =>
        match parseOperands m rest with
        | none => .error ⟨line, .syntaxError⟩
        | some (body, more) =>
          match p.place capacity line body with
          | .error e => .error e
          | .ok q => parseUnits fuel capacity q more
      | none =>
        match p.bind capacity line text with
        | .error e => .error e
        | .ok q => parseUnits fuel capacity q rest
    | .directive name =>
      if name = bytesOf "END" then .ok p
      else
        match parseDirective name rest with
        | .error kind => .error ⟨line, kind⟩
        | .ok (body, more) =>
          match p.place capacity line body with
          | .error e => .error e
          | .ok q => parseUnits fuel capacity q more
    | .reg _ | .imm _ | .str _ | .comma => .error ⟨line, .syntaxError⟩

/-- The first pass: the text begins with `.ORIG` and a numeric operand in x0000..xFFFF (R110, R119). DESIGN CHOICE (log 13): the
range error of that operand is found here, before the rest of the text is parsed. -/
def parseProgram (capacity : Option Nat) (toks : Tokens) : Except AsmError (Nat × Parsed) :=
  match toks with
  | (line, .directive name) :: (_, .imm v) :: rest =>
    if name = bytesOf "ORIG" then
      if 0 ≤ v ∧ v ≤ 65535 then
        match parseUnits rest.length capacity ⟨[], [], v.toNat⟩ rest with
        | .error e => .error e
        | .ok p => .ok (v.toNat, p)
      else .error ⟨line, .encodingRangeError⟩
    else .error ⟨line, .syntaxError⟩
  | (line, _) :: _ => .error ⟨line, .syntaxError⟩
  | [] => .error ⟨1, .syntaxError⟩

end Sys2Proof.Machine
end

