-- ==== Sys2Proof/Machine/Run.lean ====
section
/-! DEFINITION. Runs: several iterations of the run loop, and the core together with the host that holds its `INPUT`
(00_scope.md R8, 10_state.md R32, R34; 20_memory.md R69). -/

namespace Sys2Proof

/-- The byte at place `n` of an input, if there is one. -/
def Input.byteAt (i : Input) (n : Nat) : Option Byte :=
  match i with
  | .finite bytes => bytes[n]?
  | .endless byte => some (byte n)

/-- The bytes that `State.input` holds from boot on: all of a finite `INPUT`, and none of an infinite one, whose bytes the
host supplies as they are needed (20_memory.md R69; log 4). -/
def Input.atBoot (i : Input) : List Byte :=
  match i with
  | .finite bytes => bytes
  | .endless _ => []

/-- The bytes that the host holds back at boot. -/
def Input.afterBoot (i : Input) : Input :=
  match i with
  | .finite _ => .finite []
  | .endless byte => .endless byte

/-- The first byte of an input and the rest of it. -/
def Input.uncons (i : Input) : Option (Byte × Input) :=
  match i with
  | .finite [] => none
  | .finite (c :: rest) => some (c, .finite rest)
  | .endless byte => some (byte 0, .endless fun n => byte (n + 1))

end Sys2Proof

namespace Sys2Proof.Machine

/-- `n` iterations of the run loop (70_reset_and_hazards.md R236). -/
def stepTimes (n : Nat) (s : State) : Result :=
  match n with
  | 0 => .next s
  | n + 1 =>
    match step s with
    | .next t => stepTimes n t
    | .fault f => .fault f
    | .refused r => .refused r

/-- The core, and the bytes of `INPUT` that the host has not supplied to it yet. -/
structure Run where
  core : State
  host : Input

/-- The byte at place `n` of all that is still to be read: first what the core has, then what the host holds. -/
def Run.byteAt (r : Run) (n : Nat) : Option Byte :=
  if n < r.core.input.length then r.core.input[n]? else r.host.byteAt (n - r.core.input.length)

/-- The host supplies its next byte to a core that has none (20_memory.md R69). -/
def Run.feed (r : Run) : Run :=
  match r.core.input, r.host.uncons with
  | [], some (c, rest) => ⟨r.core.supply [c], rest⟩
  | [], none => r
  | _ :: _, _ => r

/-- One iteration of the run loop, with the host's next byte at hand. -/
def runStep (r : Run) : Host.Outcome Run Fault Refusal :=
  match step r.feed.core with
  | .next t => .next ⟨t, r.feed.host⟩
  | .fault f => .fault f
  | .refused x => .refused x

end Sys2Proof.Machine
end

