-- ==== Sys2Proof/Machine/Boot.lean ====
section
/-! DEFINITION. The object file and its loader, and the boot sequence with the open parameters as arguments
(70_reset_and_hazards.md R220 to R231, 00_scope.md R8). -/

namespace Sys2Proof.Machine

/-- Why the loader rejects an object file (R231): a load failure, not a runtime error (60_exceptions.md R192). The three names
are the model's (DESIGN CHOICE, log 16). -/
inductive LoadError where
  /-- The file has an odd number of bytes. -/
  | oddByteCount
  /-- The file has no origin word. -/
  | noOrigin
  /-- `origin + N > 65536` for the N program words. -/
  | outsideAddressSpace
  deriving DecidableEq, Repr

/-- The words of a byte sequence, most significant byte first (R230); none if the number of bytes is odd. -/
def wordsOfBytes (bytes : List Byte) : Option (List Word) :=
  match bytes with
  | [] => some []
  | [_] => none
  | hi :: lo :: rest =>
    match wordsOfBytes rest with
    | some ws => some ((hi ++ lo) :: ws)
    | none => none

/-- The bytes of a word sequence, most significant byte first (R230). -/
def bytesOfWords (words : List Word) : List Byte :=
  match words with
  | [] => []
  | w :: rest => w.extractLsb' 8 8 :: w.extractLsb' 0 8 :: bytesOfWords rest

/-- The loader's reading of an object file: its origin and its program words, or the rejection (R230, R231). DESIGN CHOICE
(log 16): a file with two defects, an odd number of bytes and another, is rejected for the odd number. -/
def parseObject (bytes : List Byte) : Except LoadError (Word × List Word) :=
  match wordsOfBytes bytes with
  | none => .error .oddByteCount
  | some [] => .error .noOrigin
  | some (origin :: words) =>
    if origin.toNat + words.length > 65536 then .error .outsideAddressSpace else .ok (origin, words)

/-- Memory after boot (R225 steps 1, 2 and 4): zero, then the object words, then the boot image, each written directly into
`mem` and not through the accessor. -/
def bootMemory (p : BootParams) (origin : Word) (words : List Word) : Memory :=
  Memory.install (Memory.loadWords Memory.zeroed origin.toNat words) p.bootImage

/-- The core's state after boot (R225, 10_state.md R31). -/
def bootState (p : BootParams) (origin : Word) (words : List Word) : State where
  x := p.resetGpr
  pc := origin
  psr := PowerOn.psr p.resetPriv
  mem := bootMemory p origin words
  kbsr := PowerOn.kbsr
  kbdr := PowerOn.kbdr
  dsr := PowerOn.dsr
  ddr := PowerOn.ddr
  mcr := PowerOn.mcr
  status := .running
  input := p.input.atBoot
  output := []

/-- The core at the routine of an image's entry at x0025, with no input: the image's words stand in memory, and everything
else is as in `s`. -/
def atHaltRoutine (image : List (Word × Word)) (s : State) : State :=
  { s with pc := (s.mem.install image).read 0x0025, mem := s.mem.install image, input := [] }

/-- The five device registers hold their power-on values (10_state.md R31). -/
def devicesAtPowerOn (s : State) : Prop :=
  s.kbsr = PowerOn.kbsr ∧ s.kbdr = PowerOn.kbdr ∧ s.dsr = PowerOn.dsr ∧ s.ddr = PowerOn.ddr ∧ s.mcr = PowerOn.mcr

end Sys2Proof.Machine

namespace Sys2Proof

open Sys2Proof.Machine

/-- What R229 asks of the boot image (log 15): an entry at x0025; its routine clears `MCR[15]`, which ends the run, from the
mode and the device registers that boot leaves, whatever the general registers, the flags and the rest of memory hold; and it
never reads KBDR, where it would block with no input, whatever the whole state holds. -/
def BootParams.HasHalt (p : BootParams) : Prop :=
  (∃ entry : Word, (0x0025#16, entry) ∈ p.bootImage) ∧
  (∀ s : State, s.status = .running → s.psr.getLsbD 15 = p.resetPriv → devicesAtPowerOn s →
    ∃ n t, stepTimes n (atHaltRoutine p.bootImage s) = .next t ∧ t.status = .halted ∧ t.mcr.getLsbD 15 = false) ∧
  (∀ s : State, s.status = .running → s.runBit = true →
    ∀ n, stepTimes n (atHaltRoutine p.bootImage s) ≠ .fault .keyboardBlocked)

end Sys2Proof

namespace Sys2Proof.Machine

/-- The boot sequence (R225) on an object file: the run does not start if the loader rejects it (R231). A boot image that
does not meet R229 cannot be given. -/
def boot (p : BootParams) (_ : p.HasHalt) (object : List Byte) : Except LoadError State :=
  match parseObject object with
  | .error e => .error e
  | .ok (origin, words) => .ok (bootState p origin words)

/-- The start of a run (R220, R225): the booted core, and the host with the rest of `INPUT`. -/
def startRun (p : BootParams) (h : p.HasHalt) (object : List Byte) : Except LoadError Run :=
  match boot p h object with
  | .error e => .error e
  | .ok s => .ok ⟨s, p.input.afterBoot⟩

/-- The parameters `State.reset` stands for: the values of Config.lean and the reference image (R227). -/
def resetParams : BootParams where
  resetPriv := Config.resetPriv
  resetGpr := Config.resetGpr
  bootImage := BootImage.reference
  input := .finite Config.input

end Sys2Proof.Machine
end

