-- ==== Sys2Proof/Machine/AsmEncode.lean ====
section
/-! DEFINITION. The assembler's second pass (30_encoding.md R116 to R122): range checks, label resolution and the object
file of 70_reset_and_hazards.md R230. -/

namespace Sys2Proof.Machine

/-- The `n`-bit two's complement field of a value, if the value fits it (R119). -/
def signedField (n : Nat) (v : Int) : Option (BitVec n) :=
  if -(2 ^ (n - 1) : Int) ≤ v ∧ v < (2 ^ (n - 1) : Int) then some (BitVec.ofInt n v) else none

/-- The 8-bit vector of a value in 0..255 (R119). -/
def vectorField (v : Int) : Option (BitVec 8) :=
  if 0 ≤ v ∧ v ≤ 255 then some (BitVec.ofInt 8 v) else none

/-- The word of a `.FILL` literal in -32768..65535, modulo 2^16 (R119). -/
def fillWord (v : Int) : Option Word :=
  if -32768 ≤ v ∧ v ≤ 65535 then some (BitVec.ofInt 16 v) else none

/-- The offset to a symbol from the instruction at `address` (R118). DESIGN CHOICE (log 13): the difference is taken over the
integers and not modulo 2^16, so a label is never reached across xFFFF and x0000; D6 does not list R118. -/
def offsetTo (value address : Nat) : Int := (value : Int) - ((address : Int) + 1)

/-- The instruction of a register and a resolved PCoffset9 (R115). -/
def PcrKind.instr (kind : PcrKind) (r : RegIx) (off : BitVec 9) : Instr :=
  match kind with
  | .ld => .ld r off
  | .ldi => .ldi r off
  | .lea => .lea r off
  | .st => .st r off
  | .sti => .sti r off

/-- The words of one item with instruction `i`, or an EncodingRangeError if its field did not fit. -/
def oneWord (i : Option Instr) : Except AsmErrorKind (List Word) :=
  match i with
  | some i => .ok [encode i]
  | none => .error .encodingRangeError

/-- The words of an instruction at `address` that refers to `label`, whose offset has `n` bits (R118). -/
def relativeWord (symbols : Symbols) (address n : Nat) (label : List Byte) (mk : BitVec n → Instr) :
    Except AsmErrorKind (List Word) :=
  match symbols.entry label with
  | some (some value) => oneWord ((signedField n (offsetTo value address)).map mk)
  | some none => .error (.symbolError label)
  | none => .error (.symbolError label)

/-- The words of a body at `address` (R115 to R119). -/
def bodyWords (symbols : Symbols) (address : Nat) (body : Body) : Except AsmErrorKind (List Word) :=
  match body with
  | .plain i => .ok [encode i]
  | .opImm isAdd dr sr1 v =>
    oneWord ((signedField 5 v).map fun f => if isAdd then .addImm dr sr1 f else .andImm dr sr1 f)
  | .baseOffset isLoad r base v =>
    oneWord ((signedField 6 v).map fun f => if isLoad then .ldr r base f else .str r base f)
  | .br n z p label => relativeWord symbols address 9 label (.br n z p)
  | .pcr kind r label => relativeWord symbols address 9 label (kind.instr r)
  | .jsr label => relativeWord symbols address 11 label .jsr
  | .trap v => oneWord ((vectorField v).map .trap)
  | .fill v =>
    match fillWord v with
    | some w => .ok [w]
    | none => .error .encodingRangeError
  | .blkw n => .ok (List.replicate n 0)
  | .stringz text => .ok (text.map (fun b => b.setWidth 16) ++ [0])

/-- The words of the items, in order. -/
def itemsWords (symbols : Symbols) (items : List Item) : Except AsmError (List Word) :=
  match items with
  | [] => .ok []
  | item :: rest =>
    match bodyWords symbols item.address item.body with
    | .error kind => .error ⟨item.line, kind⟩
    | .ok ws =>
      match itemsWords symbols rest with
      | .error e => .error e
      | .ok more => .ok (ws ++ more)

/-- The line of the last item, for an error about the whole program (DESIGN CHOICE, log 13). -/
def lastLine (items : List Item) : Nat :=
  match items.getLast? with
  | some item => item.line
  | none => 1

/-- Assembly: the object words, the origin first and then one word per slot (R121), if the program fits the address space
(R122). -/
def assemble (p : AsmParams) (text : List Byte) : Except AsmError (List Word) :=
  match lexFrom p.maxLexeme .idle 1 text with
  | .error e => .error e
  | .ok toks =>
    match parseProgram p.symbolCapacity toks with
    | .error e => .error e
    | .ok (origin, parsed) =>
      if parsed.counter > 65536 then .error ⟨lastLine parsed.items, .encodingRangeError⟩
      else
        match itemsWords parsed.symbols parsed.items with
        | .error e => .error e
        | .ok ws => .ok (BitVec.ofNat 16 origin :: ws)

/-- The object file of a source text (R121, 70_reset_and_hazards.md R230). -/
def assembleFile (p : AsmParams) (text : List Byte) : Except AsmError (List Byte) :=
  match assemble p text with
  | .error e => .error e
  | .ok ws => .ok (bytesOfWords ws)

end Sys2Proof.Machine
end

