-- ==== Sys2Proof/Safety.lean ====
section
/-! DEFINITION. The terms claims are stated in: what a step may need, what an instruction leaves unchanged, what it writes
and reads, and the machine's invariant. -/

namespace Sys2Proof.Machine

/-- The machine executes an instruction at its next step (70_reset_and_hazards.md R236): it runs, and `MCR[15]` is 1. -/
def Ready (s : State) : Prop := s.status = .running ∧ s.mcr.getLsbD 15 = true

/-- A data read of `a` does not block: only KBDR, at xFE02, needs a byte of input (20_memory.md R57). -/
def Readable (a : Word) (s : State) : Prop := a = 0xFE02#16 → s.input ≠ []

/-- Exactly one of N, Z, P is set (10_state.md R29). -/
def OneHot (cc : BitVec 3) : Prop := cc = 0b100#3 ∨ cc = 0b010#3 ∨ cc = 0b001#3

/-- What every step keeps from any state: the storage stays in its canonical form. -/
def Inv (s : State) : Prop := s.mem.wf

/-- N, Z and P of `t` say that `v`, read as signed, is negative, zero or positive (10_state.md R27). -/
def FlagsFollow (v : Word) (t : State) : Prop :=
  (t.psr.getLsbD 2 = true ↔ v.toInt < 0) ∧ (t.psr.getLsbD 1 = true ↔ v.toInt = 0) ∧
    (t.psr.getLsbD 0 = true ↔ 0 < v.toInt)

/-- Every general register but those listed is unchanged. -/
def KeepsRegs (written : List RegIx) (s t : State) : Prop := ∀ r, r ∉ written → t.reg r = s.reg r

/-- Every word of the storage is unchanged. -/
def KeepsMemory (s t : State) : Prop := ∀ a : Word, t.mem.read a.toNat = s.mem.read a.toNat

/-- The five device registers are unchanged. -/
def KeepsDevices (s t : State) : Prop :=
  t.kbsr = s.kbsr ∧ t.kbdr = s.kbdr ∧ t.dsr = s.dsr ∧ t.ddr = s.ddr ∧ t.mcr = s.mcr

/-- The input, the output and the run state are unchanged. -/
def KeepsHost (s t : State) : Prop := t.input = s.input ∧ t.output = s.output ∧ t.status = s.status

/-- psr[15:3] is unchanged (10_state.md R27). -/
def KeepsPsrHigh (s t : State) : Prop := ∀ k, 3 ≤ k → t.psr.getLsbD k = s.psr.getLsbD k

/-- From `s` to `t`, only register `dr`, which holds `v`, and the condition codes, which follow `v`, have changed. -/
def WritesResult (dr : RegIx) (v : Word) (s t : State) : Prop :=
  t.reg dr = v ∧ FlagsFollow v t ∧ KeepsPsrHigh s t ∧ KeepsRegs [dr] s t ∧ t.pc = s.pc ∧ KeepsMemory s t ∧
    KeepsDevices s t ∧ KeepsHost s t

/-- From `s` to `t`, only the pc, which is `target`, has changed. -/
def OnlyJumps (target : Word) (s t : State) : Prop :=
  t.pc = target ∧ t.psr = s.psr ∧ KeepsRegs [] s t ∧ KeepsMemory s t ∧ KeepsDevices s t ∧ KeepsHost s t

/-- From `s` to `t`, only the pc, which is `target`, and R7, which holds `s`'s pc, have changed. -/
def Calls (target : Word) (s t : State) : Prop :=
  t.pc = target ∧ t.reg 7 = s.pc ∧ t.psr = s.psr ∧ KeepsRegs [7] s t ∧ KeepsMemory s t ∧ KeepsDevices s t ∧ KeepsHost s t

/-- From `s` to `t`, only a data read of address `a` that gives `v` has happened (20_memory.md R57): at xFE02 one byte of
the input has gone to KBDR; everywhere else nothing has changed. -/
def ReadsWord (a v : Word) (s t : State) : Prop :=
  (a = 0xFE02#16 → ∃ c rest, s.input = c :: rest ∧ v = c.setWidth 16 ∧
    t = { s with kbdr := c.setWidth 16, input := rest }) ∧
  (a = 0xFE00#16 → v = s.kbsr ∧ t = s) ∧ (a = 0xFE04#16 → v = s.dsr ∧ t = s) ∧ (a = 0xFE06#16 → v = s.ddr ∧ t = s) ∧
  (a = 0xFFFE#16 → v = s.mcr ∧ t = s) ∧
  (a ∉ ([0xFE00#16, 0xFE02#16, 0xFE04#16, 0xFE06#16, 0xFFFE#16] : List Word) → v = s.mem.read a.toNat ∧ t = s)

/-- From `s` to `t`, only a data write of `v` to address `a` has happened (20_memory.md R58): at a device address the
device register holds `v`, and a write of DDR sends `v[7:0]` to the display; everywhere else the RAM word at `a` holds
`v`, and every other word reads as before. -/
def StoresWord (a v : Word) (s t : State) : Prop :=
  (∀ b : Word, b ≠ a → t.mem.read b.toNat = s.mem.read b.toNat) ∧
  t.mem.read a.toNat =
    (if a ∈ ([0xFE00#16, 0xFE02#16, 0xFE04#16, 0xFE06#16, 0xFFFE#16] : List Word) then s.mem.read a.toNat else v) ∧
  t.kbsr = (if a = 0xFE00#16 then v else s.kbsr) ∧ t.kbdr = (if a = 0xFE02#16 then v else s.kbdr) ∧
  t.dsr = (if a = 0xFE04#16 then v else s.dsr) ∧ t.ddr = (if a = 0xFE06#16 then v else s.ddr) ∧
  t.mcr = (if a = 0xFFFE#16 then v else s.mcr) ∧
  t.output = (if a = 0xFE06#16 then s.output ++ [v.setWidth 8] else s.output) ∧ t.input = s.input ∧
  t.status = s.status ∧ t.pc = s.pc ∧ t.psr = s.psr ∧ KeepsRegs [] s t

/-- The general registers an instruction writes (10_state.md R22). -/
def regsWritten : Instr → List RegIx
  | .addReg dr _ _ | .addImm dr _ _ | .andReg dr _ _ | .andImm dr _ _ | .not dr _ | .ld dr _ | .ldi dr _ | .ldr dr _ _
  | .lea dr _ => [dr]
  | .jsr _ | .jsrr _ | .trap _ => [7]
  | .rti => [6]
  | .br _ _ _ _ | .st _ _ | .sti _ _ | .str _ _ _ | .jmp _ | .ret | .reserved => []

/-- The general registers an instruction reads (10_state.md R22). -/
def regsRead : Instr → List RegIx
  | .addReg _ sr1 sr2 | .andReg _ sr1 sr2 => [sr1, sr2]
  | .addImm _ sr1 _ | .andImm _ sr1 _ => [sr1]
  | .not _ sr => [sr]
  | .ldr _ base _ => [base]
  | .st sr _ | .sti sr _ => [sr]
  | .str sr base _ => [sr, base]
  | .jmp base | .jsrr base => [base]
  | .ret => [7]
  | .rti => [6]
  | .br _ _ _ _ | .ld _ _ | .ldi _ _ | .lea _ _ | .jsr _ | .trap _ | .reserved => []

/-- The register whose new value an instruction sets the condition codes from (10_state.md R28), if there is one. -/
def setccReg : Instr → Option RegIx
  | .addReg dr _ _ | .addImm dr _ _ | .andReg dr _ _ | .andImm dr _ _ | .not dr _ | .ld dr _ | .ldi dr _ | .ldr dr _ _
  | .lea dr _ => some dr
  | .br _ _ _ _ | .st _ _ | .sti _ _ | .str _ _ _ | .jsr _ | .jsrr _ | .jmp _ | .ret | .trap _ | .rti | .reserved => none

/-- The instruction can write a pc other than A + 1 (42_control.md, 43_system.md). -/
def transfersControl : Instr → Bool
  | .br _ _ _ _ | .jmp _ | .ret | .jsr _ | .jsrr _ | .trap _ | .rti => true
  | .addReg _ _ _ | .addImm _ _ _ | .andReg _ _ _ | .andImm _ _ _ | .not _ _ | .ld _ _ | .ldi _ _ | .ldr _ _ _
  | .lea _ _ | .st _ _ | .sti _ _ | .str _ _ _ | .reserved => false

/-- The opcode, bits 15:12 of a word (30_encoding.md R93). -/
def opcodeOf (w : Word) : BitVec 4 := w.extractLsb' 12 4

/-- The opcode an instruction has in the opcode map (30_encoding.md R100). -/
def opcode : Instr → BitVec 4
  | .br _ _ _ _ => 0b0000#4
  | .addReg _ _ _ | .addImm _ _ _ => 0b0001#4
  | .ld _ _ => 0b0010#4
  | .st _ _ => 0b0011#4
  | .jsr _ | .jsrr _ => 0b0100#4
  | .andReg _ _ _ | .andImm _ _ _ => 0b0101#4
  | .ldr _ _ _ => 0b0110#4
  | .str _ _ _ => 0b0111#4
  | .rti => 0b1000#4
  | .not _ _ => 0b1001#4
  | .ldi _ _ => 0b1010#4
  | .sti _ _ => 0b1011#4
  | .jmp _ | .ret => 0b1100#4
  | .reserved => 0b1101#4
  | .lea _ _ => 0b1110#4
  | .trap _ => 0b1111#4

end Sys2Proof.Machine
end

