-- ==== Sys2Proof/Certificates/Slice0/Obligations.lean ====
section
/-! DEFINITION. The statements for the provers. Each docstring names the rules of spec/ a statement formalises. -/

open Sys2Proof Sys2Proof.Machine

/-! ## Encoding -/

/-- Decoding the word of a well-formed instruction gives the instruction back, with every operand at every value
(30_encoding.md R92, R93, R103). -/
def Obligations.EncodedInstructionDecodesBack : Prop :=
  ∀ i : Instr, i.wellFormed = true → decode (encode i) = i

/-- Every word decodes to a well-formed instruction (30_encoding.md R91). That a word of format JMP decodes to RET where
BaseR is R7, and to JMP with any other base only, is the model's own split of the two names (log 7). -/
def Obligations.DecodedInstructionIsWellFormed : Prop :=
  (∀ w : Word, (decode w).wellFormed = true) ∧
  (∀ w : Word, opcodeOf w = 0b1100#4 → decode w =
    if w.extractLsb' 6 3 = 0b111#3 then .ret else .jmp (w.extractLsb' 6 3).toFin)

/-- 30_encoding.md R97: changing ignored bits of a word changes neither the instruction nor what it does, the ignored bits
are those the rule lists, and the encoder writes 0 in them, but for NOT, whose bits 5:0 it writes 111111. -/
def Obligations.IgnoredBitsDoNotMatter : Prop :=
  (∀ w d : Word, decode (w ^^^ (d &&& ignoredBits (decode w))) = decode w) ∧
  (∀ w d : Word, ∀ s : State, exec (decode (w ^^^ (d &&& ignoredBits (decode w)))) s = exec (decode w) s) ∧
  (∀ i : Instr, ignoredBits i =
    if opcode i = 0b0001#4 ∧ (encode i).getLsbD 5 = false ∨ opcode i = 0b0101#4 ∧ (encode i).getLsbD 5 = false then 0x0018#16
    else if opcode i = 0b1001#4 then 0x003F#16
    else if opcode i = 0b1100#4 then 0x0E3F#16
    else if opcode i = 0b0100#4 ∧ (encode i).getLsbD 11 = false then 0x063F#16
    else if opcode i = 0b1111#4 then 0x0F00#16
    else if opcode i = 0b1000#4 ∨ opcode i = 0b1101#4 then 0x0FFF#16
    else 0x0000#16) ∧
  (∀ i : Instr, encode i &&& ignoredBits i = if opcode i = 0b1001#4 then 0x003F#16 else 0x0000#16)

/-- Words that 95_test_vectors.md gives, one at least of each format, decode as it says: they are decode vectors of the table
DEC-1 to DEC-32, but for xC080, which is the word of JMP-2. The decoded name of xC1C0 is the model's: the spec's table has
JMP with base 7, which is RET (log 7). -/
def Obligations.WordsOfTheSpecDecode : Prop :=
  decode 0x0FFE#16 = .br true true true (-2) ∧ decode 0x0B00#16 = .br true false true (-256) ∧
  decode 0x1021#16 = .addImm 0 0 1 ∧ decode 0x1401#16 = .addReg 2 0 1 ∧ decode 0x527F#16 = .andImm 1 1 (-1) ∧
  decode 0x923F#16 = .not 1 0 ∧ decode 0x2001#16 = .ld 0 1 ∧ decode 0xA001#16 = .ldi 0 1 ∧
  decode 0xE1FF#16 = .lea 0 (-1) ∧ decode 0x300A#16 = .st 0 10 ∧ decode 0xB001#16 = .sti 0 1 ∧
  decode 0x6020#16 = .ldr 0 0 (-32) ∧ decode 0x7E3F#16 = .str 7 0 (-1) ∧ decode 0xC1C0#16 = .ret ∧
  decode 0xC080#16 = .jmp 2 ∧ decode 0x4802#16 = .jsr 2 ∧ decode 0x4080#16 = .jsrr 2 ∧
  decode 0xF025#16 = .trap 0x25 ∧ decode 0x8000#16 = .rti ∧ decode 0xD000#16 = .reserved

/-- 30_encoding.md R101 and 43_system.md R182: the words of the reserved opcode are exactly those with bits 15:12 = 1101, and
executing one raises IllegalOpcode: only the run state changes. -/
def Obligations.ReservedOpcodeIsIllegal : Prop :=
  (∀ w : Word, decode w = .reserved ↔ opcodeOf w = 0b1101#4) ∧
  (∀ s : State, exec .reserved s = .next { s with status := .error .illegalOpcode })

/-- 30_encoding.md R102, R104: a word whose opcode is 0000 and whose mask is 000, the all-zero word among them, changes
nothing, so the pc stays at A + 1. -/
def Obligations.BranchWithEmptyMaskIsANoOp : Prop :=
  ∀ w : Word, w.extractLsb' 9 7 = 0#7 → ∀ s : State, exec (decode w) s = .next s

/-! ## Operate instructions -/

/-- 40_operate.md R140: the words of ADD, and the sum of two registers or of a register and the sign-extended imm5 in DR,
with the condition codes of the sum and nothing else changed. -/
def Obligations.AddWritesTheSum : Prop :=
  (∀ w : Word, opcodeOf w = 0b0001#4 → decode w =
    if w.getLsbD 5 then .addImm (w.extractLsb' 9 3).toFin (w.extractLsb' 6 3).toFin (w.extractLsb' 0 5)
    else .addReg (w.extractLsb' 9 3).toFin (w.extractLsb' 6 3).toFin (w.extractLsb' 0 3).toFin) ∧
  (∀ (dr sr1 sr2 : RegIx) (s : State), ∃ t, exec (.addReg dr sr1 sr2) s = .next t ∧
    WritesResult dr (s.reg sr1 + s.reg sr2) s t) ∧
  (∀ (dr sr1 : RegIx) (imm : BitVec 5) (s : State), ∃ t, exec (.addImm dr sr1 imm) s = .next t ∧
    WritesResult dr (s.reg sr1 + imm.signExtend 16) s t)

/-- 40_operate.md R141: the words of AND, and the bitwise conjunction in DR, with its condition codes and nothing else
changed. -/
def Obligations.AndWritesTheConjunction : Prop :=
  (∀ w : Word, opcodeOf w = 0b0101#4 → decode w =
    if w.getLsbD 5 then .andImm (w.extractLsb' 9 3).toFin (w.extractLsb' 6 3).toFin (w.extractLsb' 0 5)
    else .andReg (w.extractLsb' 9 3).toFin (w.extractLsb' 6 3).toFin (w.extractLsb' 0 3).toFin) ∧
  (∀ (dr sr1 sr2 : RegIx) (s : State), ∃ t, exec (.andReg dr sr1 sr2) s = .next t ∧
    WritesResult dr (s.reg sr1 &&& s.reg sr2) s t) ∧
  (∀ (dr sr1 : RegIx) (imm : BitVec 5) (s : State), ∃ t, exec (.andImm dr sr1 imm) s = .next t ∧
    WritesResult dr (s.reg sr1 &&& imm.signExtend 16) s t)

/-- 40_operate.md R142: the words of NOT, and the complement in DR, with its condition codes and nothing else changed. -/
def Obligations.NotWritesTheComplement : Prop :=
  (∀ w : Word, opcodeOf w = 0b1001#4 → decode w = .not (w.extractLsb' 9 3).toFin (w.extractLsb' 6 3).toFin) ∧
  (∀ w : Word, ∀ dr sr : RegIx, w = encode (.not dr sr) → w.extractLsb' 0 6 = 0b111111#6) ∧
  (∀ (dr sr : RegIx) (s : State), ∃ t, exec (.not dr sr) s = .next t ∧ WritesResult dr (~~~(s.reg sr)) s t)

/-- 40_operate.md R143: in both forms of ADD the sum in DR is at once the unsigned and the signed sum of the operands modulo
2^16, and nothing but the sum and its condition codes shows an overflow or a carry: nothing else changes. -/
def Obligations.AddIsModularAddition : Prop :=
  (∀ (dr sr1 sr2 : RegIx) (s t : State), exec (.addReg dr sr1 sr2) s = .next t →
    (t.reg dr).toNat = ((s.reg sr1).toNat + (s.reg sr2).toNat) % 65536 ∧
    (t.reg dr).toInt = ((s.reg sr1).toInt + (s.reg sr2).toInt).bmod 65536 ∧ WritesResult dr (t.reg dr) s t) ∧
  (∀ (dr sr1 : RegIx) (imm : BitVec 5) (s t : State), exec (.addImm dr sr1 imm) s = .next t →
    (t.reg dr).toNat = ((s.reg sr1).toNat + (imm.signExtend 16).toNat) % 65536 ∧
    (t.reg dr).toInt = ((s.reg sr1).toInt + imm.toInt).bmod 65536 ∧ WritesResult dr (t.reg dr) s t)

/-- 10_state.md R36: the ALU's four results, and in every case the condition codes that `setcc` would write for the
result. -/
def Obligations.AluGivesResultAndFlags : Prop :=
  ∀ a b : Word,
    (alu .add a b).1.toNat = (a.toNat + b.toNat) % 65536 ∧ (alu .and a b).1 = a &&& b ∧ (alu .not a b).1 = ~~~a ∧
    (alu .pass a b).1 = a ∧
    ∀ (op : AluOp) (s : State), (setcc (alu op a b).1 s).cc = (alu op a b).2

/-! ## Loads, stores and LEA -/

/-- 41_data_movement.md R150: the words of LD, and the word read at pc + PCoffset9 in DR, with its condition codes; besides
the read, nothing else changes. The instruction blocks only on a read of KBDR with no input. -/
def Obligations.LdLoadsTheWord : Prop :=
  (∀ w : Word, opcodeOf w = 0b0010#4 → decode w = .ld (w.extractLsb' 9 3).toFin (w.extractLsb' 0 9)) ∧
  (∀ (dr : RegIx) (off : BitVec 9) (s : State), Readable (s.pc + off.signExtend 16) s →
    ∃ v m t, ReadsWord (s.pc + off.signExtend 16) v s m ∧ exec (.ld dr off) s = .next t ∧ WritesResult dr v m t) ∧
  (∀ (dr : RegIx) (off : BitVec 9) (s : State), ¬ Readable (s.pc + off.signExtend 16) s →
    exec (.ld dr off) s = .fault .keyboardBlocked)

/-- 41_data_movement.md R151: the words of LDI, and the word at the address that the PC-relative word holds in DR, with its
condition codes; besides the two reads, in this order, nothing else changes. It blocks only on a read of KBDR with no
input, whichever of the two it is. -/
def Obligations.LdiLoadsThroughThePointer : Prop :=
  (∀ w : Word, opcodeOf w = 0b1010#4 → decode w = .ldi (w.extractLsb' 9 3).toFin (w.extractLsb' 0 9)) ∧
  (∀ (dr : RegIx) (off : BitVec 9) (s : State), Readable (s.pc + off.signExtend 16) s →
    ∃ p m, ReadsWord (s.pc + off.signExtend 16) p s m ∧
      (Readable p m → ∃ v n t, ReadsWord p v m n ∧ exec (.ldi dr off) s = .next t ∧ WritesResult dr v n t) ∧
      (¬ Readable p m → exec (.ldi dr off) s = .fault .keyboardBlocked)) ∧
  (∀ (dr : RegIx) (off : BitVec 9) (s : State), ¬ Readable (s.pc + off.signExtend 16) s →
    exec (.ldi dr off) s = .fault .keyboardBlocked)

/-- 41_data_movement.md R152: the words of LDR, and the word read at BaseR + offset6 in DR, with its condition codes; the
base is read before DR is written, and is not modified unless it is DR. It blocks only on a read of KBDR with no input. -/
def Obligations.LdrLoadsFromTheBase : Prop :=
  (∀ w : Word, opcodeOf w = 0b0110#4 →
    decode w = .ldr (w.extractLsb' 9 3).toFin (w.extractLsb' 6 3).toFin (w.extractLsb' 0 6)) ∧
  (∀ (dr base : RegIx) (off : BitVec 6) (s : State), Readable (s.reg base + off.signExtend 16) s →
    ∃ v m t, ReadsWord (s.reg base + off.signExtend 16) v s m ∧ exec (.ldr dr base off) s = .next t ∧
      WritesResult dr v m t) ∧
  (∀ (dr base : RegIx) (off : BitVec 6) (s : State), ¬ Readable (s.reg base + off.signExtend 16) s →
    exec (.ldr dr base off) s = .fault .keyboardBlocked)

/-- 41_data_movement.md R153: the words of LEA, and the address pc + PCoffset9 itself in DR, with its condition codes; there
is no access, so it completes at a device address and without input too. -/
def Obligations.LeaLoadsTheAddress : Prop :=
  (∀ w : Word, opcodeOf w = 0b1110#4 → decode w = .lea (w.extractLsb' 9 3).toFin (w.extractLsb' 0 9)) ∧
  (∀ (dr : RegIx) (off : BitVec 9) (s : State), ∃ t, exec (.lea dr off) s = .next t ∧
    WritesResult dr (s.pc + off.signExtend 16) s t)

/-- 41_data_movement.md R154: the words of ST, and SR stored at pc + PCoffset9; besides the write, nothing changes. -/
def Obligations.StStoresTheRegister : Prop :=
  (∀ w : Word, opcodeOf w = 0b0011#4 → decode w = .st (w.extractLsb' 9 3).toFin (w.extractLsb' 0 9)) ∧
  (∀ (sr : RegIx) (off : BitVec 9) (s : State), ∃ t, exec (.st sr off) s = .next t ∧
    StoresWord (s.pc + off.signExtend 16) (s.reg sr) s t)

/-- 41_data_movement.md R155: the words of STI, and SR stored at the address that the PC-relative word holds; besides the
read and the write, nothing changes. It blocks only when the pointer is read from KBDR with no input. -/
def Obligations.StiStoresThroughThePointer : Prop :=
  (∀ w : Word, opcodeOf w = 0b1011#4 → decode w = .sti (w.extractLsb' 9 3).toFin (w.extractLsb' 0 9)) ∧
  (∀ (sr : RegIx) (off : BitVec 9) (s : State), Readable (s.pc + off.signExtend 16) s →
    ∃ p m t, ReadsWord (s.pc + off.signExtend 16) p s m ∧ exec (.sti sr off) s = .next t ∧
      StoresWord p (s.reg sr) m t) ∧
  (∀ (sr : RegIx) (off : BitVec 9) (s : State), ¬ Readable (s.pc + off.signExtend 16) s →
    exec (.sti sr off) s = .fault .keyboardBlocked)

/-- 41_data_movement.md R156: the words of STR, and SR stored at BaseR + offset6; besides the write, nothing changes. -/
def Obligations.StrStoresAtTheBase : Prop :=
  (∀ w : Word, opcodeOf w = 0b0111#4 →
    decode w = .str (w.extractLsb' 9 3).toFin (w.extractLsb' 6 3).toFin (w.extractLsb' 0 6)) ∧
  (∀ (sr base : RegIx) (off : BitVec 6) (s : State), ∃ t, exec (.str sr base off) s = .next t ∧
    StoresWord (s.reg base + off.signExtend 16) (s.reg sr) s t)

/-! ## Control transfer -/

/-- 42_control.md R170: the words of BR, and the jump to pc + PCoffset9 when a flag that the mask selects is set; otherwise
nothing changes. -/
def Obligations.BrJumpsOnASelectedFlag : Prop :=
  (∀ w : Word, opcodeOf w = 0b0000#4 → decode w = .br (w.getLsbD 11) (w.getLsbD 10) (w.getLsbD 9) (w.extractLsb' 0 9)) ∧
  (∀ (n z p : Bool) (off : BitVec 9) (s : State),
    (n = true ∧ s.psr.getLsbD 2 = true) ∨ (z = true ∧ s.psr.getLsbD 1 = true) ∨ (p = true ∧ s.psr.getLsbD 0 = true) →
    ∃ t, exec (.br n z p off) s = .next t ∧ OnlyJumps (s.pc + off.signExtend 16) s t) ∧
  (∀ (n z p : Bool) (off : BitVec 9) (s : State),
    ¬((n = true ∧ s.psr.getLsbD 2 = true) ∨ (z = true ∧ s.psr.getLsbD 1 = true) ∨
      (p = true ∧ s.psr.getLsbD 0 = true)) → exec (.br n z p off) s = .next s)

/-- 42_control.md R171: every word of format JMP jumps to the address in the register that its bits 8:6 name, RET's word is
xC1C0, with BaseR = R7; any target is legal, and nothing but the pc changes. -/
def Obligations.JmpAndRetJumpToTheRegister : Prop :=
  (∀ w : Word, opcodeOf w = 0b1100#4 → ∀ s : State, ∃ t, exec (decode w) s = .next t ∧
    OnlyJumps (s.reg (w.extractLsb' 6 3).toFin) s t) ∧
  encode .ret = 0xC1C0#16 ∧
  (∀ (base : RegIx) (s : State), ∃ t, exec (.jmp base) s = .next t ∧ OnlyJumps (s.reg base) s t) ∧
  (∀ s : State, ∃ t, exec .ret s = .next t ∧ OnlyJumps (s.reg 7) s t)

/-- 42_control.md R172: the words of JSR, A + 1 in R7, and the jump to pc + PCoffset11. -/
def Obligations.JsrCallsRelativeToThePc : Prop :=
  (∀ w : Word, opcodeOf w = 0b0100#4 → w.getLsbD 11 = true → decode w = .jsr (w.extractLsb' 0 11)) ∧
  (∀ (off : BitVec 11) (s : State), ∃ t, exec (.jsr off) s = .next t ∧ Calls (s.pc + off.signExtend 16) s t)

/-- 42_control.md R173: the words of JSRR, A + 1 in R7, and the jump to the base register as it is after that write, so
that JSRR R7 continues at A + 1. -/
def Obligations.JsrrCallsTheRegister : Prop :=
  (∀ w : Word, opcodeOf w = 0b0100#4 → w.getLsbD 11 = false → decode w = .jsrr (w.extractLsb' 6 3).toFin) ∧
  (∀ (base : RegIx) (s : State), ∃ t, exec (.jsrr base) s = .next t ∧
    Calls (if base = 7 then s.pc else s.reg base) s t)

/-! ## System instructions -/

/-- 43_system.md R180: the words of TRAP, A + 1 in R7, and control at the address in the trap vector table's entry; the
entry is RAM, so the read has no side effect, and nothing else changes. -/
def Obligations.TrapGoesThroughTheVectorTable : Prop :=
  (∀ w : Word, opcodeOf w = 0b1111#4 → decode w = .trap (w.extractLsb' 0 8)) ∧
  (∀ vect : BitVec 8, (encode (.trap vect)).extractLsb' 8 4 = 0b0000#4) ∧
  (∀ (vect : BitVec 8) (s : State), ∃ t, exec (.trap vect) s = .next t ∧ Calls (s.mem.read vect.toNat) s t)

/-- 43_system.md R181: the words of RTI; in user mode PrivilegeViolation, with nothing but the run state changed; in
supervisor mode PC, then the whole PSR, from the stack at R6, and R6 two words up; besides the two reads, nothing else
changes. It blocks only on a pop at KBDR with no input. -/
def Obligations.RtiPopsPcAndPsr : Prop :=
  (∀ w : Word, opcodeOf w = 0b1000#4 → decode w = .rti) ∧ encode .rti = 0x8000#16 ∧
  (∀ s : State, s.psr.getLsbD 15 = true → exec .rti s = .next { s with status := .error .privilegeViolation }) ∧
  (∀ s : State, s.psr.getLsbD 15 = false → Readable (s.reg 6) s → Readable (s.reg 6 + 1#16) s →
    ∃ newPc m newPsr n t, ReadsWord (s.reg 6) newPc s m ∧ ReadsWord (s.reg 6 + 1#16) newPsr m n ∧
      exec .rti s = .next t ∧ t.pc = newPc ∧ t.psr = newPsr ∧ t.reg 6 = s.reg 6 + 2#16 ∧ KeepsRegs [6] s t ∧
      KeepsMemory s t ∧ KeepsDevices n t ∧ KeepsHost n t) ∧
  (∀ s : State, s.psr.getLsbD 15 = false → ¬ Readable (s.reg 6) s ∨ ¬ Readable (s.reg 6 + 1#16) s →
    exec .rti s = .fault .keyboardBlocked)

/-! ## Memory and devices -/

/-- 20_memory.md R57: a data read that does not have to wait gives the selected word, with the side effect at KBDR alone,
and a read of KBDR with no input has no answer but the block. -/
def Obligations.DataReadGivesTheSelectedWord : Prop :=
  (∀ (a : Word) (s : State), Readable a s → ∃ v t, memRead a s = .ok (v, t) ∧ ReadsWord a v s t) ∧
  (∀ (a : Word) (s : State), ¬ Readable a s → memRead a s = .error .keyboardBlocked)

/-- 20_memory.md R58: a data write changes the selected place alone, a write of DDR emits exactly one byte, and a write of
MCR that clears bit 15 ends the run before the next fetch. -/
def Obligations.DataWriteReachesTheSelectedPlace : Prop :=
  (∀ (a v : Word) (s : State), StoresWord a v s (memWrite a v s)) ∧
  (∀ (v : Word) (s : State), s.status = .running → v.getLsbD 15 = false →
    step (memWrite 0xFFFE#16 v s) = .next { memWrite 0xFFFE#16 v s with status := .halted })

/-- 20_memory.md R61: the instruction word comes from RAM, or is the value of the device register at the pc, and fetching it
has no side effect: the step is that of the instruction, from the same state but for the pc. -/
def Obligations.FetchHasNoSideEffect : Prop :=
  ∀ (s : State) (w : Word), Ready s →
    (s.pc = 0xFE00#16 → w = s.kbsr) → (s.pc = 0xFE02#16 → w = s.kbdr) → (s.pc = 0xFE04#16 → w = s.dsr) →
    (s.pc = 0xFE06#16 → w = s.ddr) → (s.pc = 0xFFFE#16 → w = s.mcr) →
    (s.pc ∉ ([0xFE00#16, 0xFE02#16, 0xFE04#16, 0xFE06#16, 0xFFFE#16] : List Word) → w = s.mem.read s.pc.toNat) →
    step s = exec (decode w) { s with pc := s.pc + 1#16 }

/-- 20_memory.md R68: a write to a RAM address is seen by the next fetch of that address, and by no fetch of another, so
that the written word is the instruction executed there. -/
def Obligations.WrittenWordIsFetched : Prop :=
  (∀ (a v : Word) (s : State), a ∉ ([0xFE00#16, 0xFE02#16, 0xFE04#16, 0xFE06#16, 0xFFFE#16] : List Word) →
    fetch a (memWrite a v s) = v) ∧
  (∀ (a b v : Word) (s : State), a ≠ b → fetch b (memWrite a v s) = fetch b s) ∧
  (∀ (v : Word) (s : State), Ready s → s.pc ∉ ([0xFE00#16, 0xFE02#16, 0xFE04#16, 0xFE06#16, 0xFFFE#16] : List Word) →
    step (memWrite s.pc v s) = exec (decode v) { memWrite s.pc v s with pc := s.pc + 1#16 })

/-- 20_memory.md R55: at the five device addresses a fetch gives the device register, a data read gives it too (at KBDR it
takes a byte, or blocks while there is none), a data write reaches it alone, and none of the three depends on the RAM cell or
changes it. -/
def Obligations.DeviceRegistersShadowRam : Prop :=
  (∀ s : State, fetch 0xFE00#16 s = s.kbsr ∧ fetch 0xFE02#16 s = s.kbdr ∧ fetch 0xFE04#16 s = s.dsr ∧
    fetch 0xFE06#16 s = s.ddr ∧ fetch 0xFFFE#16 s = s.mcr) ∧
  (∀ a ∈ ([0xFE00#16, 0xFE02#16, 0xFE04#16, 0xFE06#16, 0xFFFE#16] : List Word), ∀ s : State,
    (Readable a s → ∃ v t, memRead a s = .ok (v, t) ∧ ReadsWord a v s t) ∧
    (¬ Readable a s → memRead a s = .error .keyboardBlocked) ∧
    (∀ v : Word, StoresWord a v s (memWrite a v s))) ∧
  ∀ a ∈ ([0xFE00#16, 0xFE02#16, 0xFE04#16, 0xFE06#16, 0xFFFE#16] : List Word), ∀ (s : State) (cells : Memory),
    fetch a { s with mem := cells } = fetch a s ∧
    (∀ (v : Word) (t : State), memRead a s = .ok (v, t) →
      memRead a { s with mem := cells } = .ok (v, { t with mem := cells })) ∧
    (∀ v : Word, (memWrite a v s).mem = s.mem)

/-! ## The run loop -/

/-- 70_reset_and_hazards.md R236: one iteration of the run loop. With the run bit set the word at the pc is fetched, the pc
moves on by one, and the decoded instruction executes; with the run bit clear the run ends; when the run is over there is
no next state. -/
def Obligations.StepRunsTheDecodedInstruction : Prop :=
  (∀ s : State, Ready s → step s = exec (decode (fetch s.pc s)) { s with pc := s.pc + 1#16 }) ∧
  (∀ s : State, s.status = .running → s.mcr.getLsbD 15 = false → step s = .next { s with status := .halted }) ∧
  (∀ s : State, s.status ≠ .running → step s = .fault .runOver)

/-- 10_state.md R33: the run state is Running from boot until the first halt check that finds the run bit clear, which makes
it Halted, illegal opcode, or RTI in user mode, which make it Error; it changes in no other way, and nothing leaves Halted or
Error. -/
def Obligations.RunStateChangesOnlySo : Prop :=
  (∀ (p : BootParams) (origin : Word) (words : List Word), (bootState p origin words).status = .running) ∧
  (∀ s : State, s.status ≠ .running → ∀ t, step s ≠ .next t) ∧
  (∀ s : State, s.status = .running → s.mcr.getLsbD 15 = false → ∃ t, step s = .next t ∧ t.status = .halted) ∧
  (∀ s : State, Ready s → decode (fetch s.pc s) = .reserved →
    ∃ t, step s = .next t ∧ t.status = .error .illegalOpcode) ∧
  (∀ s : State, Ready s → decode (fetch s.pc s) = .rti → s.psr.getLsbD 15 = true →
    ∃ t, step s = .next t ∧ t.status = .error .privilegeViolation) ∧
  (∀ s t : State, step s = .next t →
    (t.status = .running ∧ s.mcr.getLsbD 15 = true) ∨ (t.status = .halted ∧ s.mcr.getLsbD 15 = false) ∨
    (t.status = .error .illegalOpcode ∧ decode (fetch s.pc s) = .reserved) ∨
    (t.status = .error .privilegeViolation ∧ decode (fetch s.pc s) = .rti ∧ s.psr.getLsbD 15 = true))

/-- 60_exceptions.md R190: a runtime error leaves the pc at A + 1 and every other register, cell and device as it was, sets
the error's kind, and ends the run. -/
def Obligations.RuntimeErrorWritesOnlyTheRunState : Prop :=
  (∀ s : State, Ready s → decode (fetch s.pc s) = .reserved →
    step s = .next { s with pc := s.pc + 1#16, status := .error .illegalOpcode }) ∧
  (∀ s : State, Ready s → decode (fetch s.pc s) = .rti → s.psr.getLsbD 15 = true →
    step s = .next { s with pc := s.pc + 1#16, status := .error .privilegeViolation }) ∧
  (∀ (s t : State) (kind : ErrorKind), step s = .next t → t.status = .error kind → step t = .fault .runOver)

/-- 60_exceptions.md R192, R205, 20_memory.md R57: a step has no next state only when the run is over, or when the core is
blocked on KBDR with no input; no instruction is refused. -/
def Obligations.OnlyAnEndedOrBlockedRunStops : Prop :=
  ∀ s : State, (∃ t, step s = .next t) ∨ (s.status ≠ .running ∧ step s = .fault .runOver) ∨
    (Ready s ∧ s.input = [] ∧ step s = .fault .keyboardBlocked)

/-- 10_state.md R23, R24: an instruction that does not transfer control leaves the pc at A + 1, which after xFFFF is
x0000. -/
def Obligations.PcMovesToTheNextWord : Prop :=
  (∀ s t : State, Ready s → transfersControl (decode (fetch s.pc s)) = false → step s = .next t →
    t.pc = s.pc + 1#16) ∧
  (∀ s t : State, Ready s → s.pc = 0xFFFF#16 → transfersControl (decode (fetch s.pc s)) = false → step s = .next t →
    t.pc = 0x0000#16)

/-! ## Registers and flags -/

/-- 10_state.md R22, R35: an instruction writes no general register but those of its row of the table. -/
def Obligations.OnlyTheTablesRegistersAreWritten : Prop :=
  ∀ (i : Instr) (s t : State), exec i s = .next t → KeepsRegs (regsWritten i) s t

/-- 10_state.md R22, R35: what an instruction does depends on no general register but those of its row of the table. From two
states that agree but for other registers, it answers states that agree but for registers it has not written. -/
def Obligations.OnlyTheTablesRegistersAreRead : Prop :=
  ∀ (i : Instr) (s t : State) (x : Vector Word 8), (∀ r ∈ regsRead i, x.get r = s.reg r) → exec i s = .next t →
    ∃ t' : State, exec i { s with x := x } = .next t' ∧ { t' with x := t.x } = t ∧
      (∀ r ∈ regsWritten i, t'.reg r = t.reg r) ∧ (∀ r, r ∉ regsWritten i → t'.reg r = x.get r)

/-- 10_state.md R27: `setcc` writes exactly one of the flags, by the sign of the value, and leaves psr[15:3]. -/
def Obligations.SetccSetsExactlyOneFlag : Prop :=
  ∀ (v : Word) (s : State), OneHot (setcc v s).cc ∧ FlagsFollow v (setcc v s) ∧ KeepsPsrHigh s (setcc v s) ∧
    setcc v s = { s with psr := (setcc v s).psr }

/-- 10_state.md R28: ADD, AND, NOT, LD, LDI, LDR and LEA set the condition codes from the destination's new value; RTI in
supervisor mode takes the whole PSR from the stack; every other instruction, and RTI in user mode, leaves the PSR as it
was. -/
def Obligations.FlagsChangeAsTheTableSays : Prop :=
  (∀ (i : Instr) (s t : State) (dr : RegIx), setccReg i = some dr → exec i s = .next t →
    FlagsFollow (t.reg dr) t ∧ OneHot t.cc ∧ KeepsPsrHigh s t) ∧
  (∀ (s t m n : State) (newPc newPsr : Word), s.psr.getLsbD 15 = false → ReadsWord (s.reg 6) newPc s m →
    ReadsWord (s.reg 6 + 1#16) newPsr m n → exec .rti s = .next t → t.psr = newPsr) ∧
  (∀ (s t : State), s.psr.getLsbD 15 = true → exec .rti s = .next t → t.psr = s.psr) ∧
  (∀ (i : Instr) (s t : State), setccReg i = none → i ≠ .rti → exec i s = .next t → t.psr = s.psr)

/-- 10_state.md R28, 60_exceptions.md R199: but for BR, which reads the condition codes, and RTI, which checks the privilege
bit, an instruction does the same whatever the PSR holds: every other part of its result is the same, and psr[15:3] stays
what it was. -/
def Obligations.OnlyBranchAndReturnReadThePsr : Prop :=
  ∀ (i : Instr) (s t : State) (psr : Word), (∀ n z p off, i ≠ .br n z p off) → i ≠ .rti → exec i s = .next t →
    ∃ t' : State, exec i { s with psr := psr } = .next t' ∧ { t' with psr := t.psr } = t ∧
      (∀ k, 3 ≤ k → t'.psr.getLsbD k = psr.getLsbD k)

/-! ## Invariants of every step -/

/-- The storage stays in the model's canonical form (log 5), whatever the step does. -/
def Obligations.StorageStaysCanonical : Prop :=
  ∀ s t : State, Inv s → step s = .next t → Inv t

/-- 10_state.md R29: exactly one of N, Z and P stays set through every step but an RTI. -/
def Obligations.OneHotFlagsAreKept : Prop :=
  ∀ s t : State, OneHot s.cc → decode (fetch s.pc s) ≠ .rti → step s = .next t → OneHot t.cc

/-- 60_exceptions.md R200: the mode after boot is RESET_PRIV; no step leaves user mode; and psr[15] changes only by an RTI in
supervisor mode, which takes it from the second popped word. -/
def Obligations.UserModeIsNeverLeft : Prop :=
  (∀ (p : BootParams) (origin : Word) (words : List Word),
    (bootState p origin words).psr.getLsbD 15 = p.resetPriv) ∧
  (∀ s t : State, s.psr.getLsbD 15 = true → step s = .next t → t.psr.getLsbD 15 = true) ∧
  (∀ s t : State, step s = .next t → t.psr.getLsbD 15 ≠ s.psr.getLsbD 15 →
    Ready s ∧ s.psr.getLsbD 15 = false ∧ decode (fetch s.pc s) = .rti) ∧
  (∀ (s t m n : State) (newPc newPsr : Word), Ready s → decode (fetch s.pc s) = .rti → s.psr.getLsbD 15 = false →
    ReadsWord (s.reg 6) newPc s m → ReadsWord (s.reg 6 + 1#16) newPsr m n → step s = .next t →
    t.psr.getLsbD 15 = newPsr.getLsbD 15)

/-- What reset leaves meets the invariants: exactly one flag, and a running machine whose run bit is set (10_state.md R29,
R31). That the storage is in the canonical form (log 5) and that the mode is supervisor (log 2) are the model's choices. -/
def Obligations.ResetMeetsTheInvariants : Prop :=
  Inv State.reset ∧ OneHot State.reset.cc ∧ Ready State.reset ∧ State.reset.userMode = false

/-- 20_memory.md R57, R58, R60: a step takes at most one byte from the front of the input and adds at most one byte at the
end of the output. -/
def Obligations.StreamsMoveByOneByte : Prop :=
  ∀ s t : State, step s = .next t →
    (t.input = s.input ∨ ∃ c, s.input = c :: t.input ∧ t.kbdr = c.setWidth 16) ∧
    (t.output = s.output ∨ t.output = s.output ++ [t.ddr.setWidth 8])

/-- 20_memory.md R69: bytes that the host supplies while the core is not blocked change nothing but the input: the step
does the same, and the new bytes stand behind those already there. -/
def Obligations.SuppliedInputOnlyWaits : Prop :=
  ∀ (s t : State) (bytes : List Byte), step s = .next t → step (s.supply bytes) = .next (t.supply bytes)

/-- 20_memory.md R57: a blocked core runs the blocked instruction in full, in one step, once the host supplies a byte; the
byte goes to KBDR. -/
def Obligations.BlockedStepRunsOnceAByteArrives : Prop :=
  ∀ (s : State) (c : Byte) (rest : List Byte), step s = .fault .keyboardBlocked →
    ∃ t, step (s.supply (c :: rest)) = .next t ∧ t.kbdr = c.setWidth 16 ∧ t.input = rest

/-! ## Boot, object file and assembler -/

/-- 70_reset_and_hazards.md R225, 10_state.md R31: boot of an object file that the loader rejects starts no run; boot of every
other starts one, for all parameters, and gives every piece of state the listed value: memory is zero, then the object words, then the boot image,
written directly, so that nothing is printed or stopped; the bytes still to be read, the core's and then the host's, are
`INPUT`, and a finite `INPUT` is the core's whole. An image names an address once. -/
def Obligations.BootFollowsTheSequence : Prop :=
  (∀ (p : BootParams) (h : p.HasHalt) (object : List Byte) (e : LoadError), parseObject object = .error e →
    startRun p h object = .error e) ∧
  ∀ (p : BootParams) (h : p.HasHalt) (object : List Byte) (origin : Word) (words : List Word),
    parseObject object = .ok (origin, words) →
    ∃ r : Run, startRun p h object = .ok r ∧ boot p h object = .ok r.core ∧
      r.core.x = p.resetGpr ∧ r.core.pc = origin ∧ r.core.psr = (if p.resetPriv then 0x8002#16 else 0x0002#16) ∧
      r.core.kbsr = 0x0000#16 ∧ r.core.kbdr = 0x0000#16 ∧ r.core.dsr = 0x8000#16 ∧ r.core.ddr = 0x0000#16 ∧
      r.core.mcr = 0x8000#16 ∧ r.core.status = .running ∧ r.core.output = [] ∧
      (∀ n : Nat, r.byteAt n = p.input.byteAt n) ∧ (∀ bytes, p.input = .finite bytes → r.core.input = bytes) ∧
      (p.bootImage.Pairwise (fun c d => c.1 ≠ d.1) → ∀ c ∈ p.bootImage, r.core.mem.read c.1.toNat = c.2) ∧
      (∀ a : Word, (∀ c ∈ p.bootImage, c.1 ≠ a) →
        r.core.mem.read a.toNat = if origin.toNat ≤ a.toNat then words.getD (a.toNat - origin.toNat) 0#16 else 0#16)

/-- `State.reset` is the boot of an object file of its origin word alone (70_reset_and_hazards.md R225, R231). The origin,
the registers, the mode and the empty input are the model's choices (log 1 to 4), and the image is the spec's reference
(R227). -/
def Obligations.ResetIsTheBootOfAnOriginWord : Prop :=
  ∀ h : resetParams.HasHalt, boot resetParams h [0x30#8, 0x00#8] = .ok State.reset

/-- 70_reset_and_hazards.md R226: with the reference image the trap vector table holds the six entries, whatever the object
file wrote there, and zero elsewhere unless the object file wrote it. -/
def Obligations.TrapVectorTableAfterBoot : Prop :=
  ∀ (p : BootParams) (origin : Word) (words : List Word), p.bootImage = BootImage.reference →
    (bootState p origin words).mem.read 0x0020 = 0x0400#16 ∧ (bootState p origin words).mem.read 0x0021 = 0x0410#16 ∧
    (bootState p origin words).mem.read 0x0022 = 0x0420#16 ∧ (bootState p origin words).mem.read 0x0023 = 0x0430#16 ∧
    (bootState p origin words).mem.read 0x0024 = 0x0440#16 ∧ (bootState p origin words).mem.read 0x0025 = 0x0470#16 ∧
    (∀ v : Nat, v < 256 → v < 0x0020 ∨ 0x0025 < v → v < origin.toNat ∨ origin.toNat + words.length ≤ v →
      (bootState p origin words).mem.read v = 0x0000#16)

/-- 70_reset_and_hazards.md R230: an object file is its words, the origin first, each with its most significant byte first;
the loader reads back what was written. -/
def Obligations.ObjectFileIsBigEndianWords : Prop :=
  (∀ (w : Word) (ws : List Word), bytesOfWords (w :: ws) = w.extractLsb' 8 8 :: w.extractLsb' 0 8 :: bytesOfWords ws) ∧
  (∀ (origin : Word) (words : List Word), origin.toNat + words.length ≤ 65536 →
    parseObject (bytesOfWords (origin :: words)) = .ok (origin, words))

/-- 70_reset_and_hazards.md R231: the loader rejects exactly a file with an odd number of bytes, one with no origin word, and
one whose origin and word count exceed the address space; a file of one word is accepted and loads nothing. The name of each
rejection, and that an odd number of bytes is reported before another defect, are the model's choice (log 16). -/
def Obligations.LoaderRejectsExactlyThese : Prop :=
  (∀ bytes : List Byte, bytes.length % 2 = 1 → parseObject bytes = .error .oddByteCount) ∧
  parseObject [] = .error .noOrigin ∧
  (∀ (hi lo : Byte) (rest : List Byte), rest.length % 2 = 0 → (hi ++ lo).toNat + rest.length / 2 > 65536 →
    parseObject (hi :: lo :: rest) = .error .outsideAddressSpace) ∧
  (∀ (hi lo : Byte) (rest : List Byte), rest.length % 2 = 0 → (hi ++ lo).toNat + rest.length / 2 ≤ 65536 →
    ∃ words, words.length = rest.length / 2 ∧ parseObject (hi :: lo :: rest) = .ok (hi ++ lo, words)) ∧
  (∀ (p : BootParams) (h : p.HasHalt) (bytes : List Byte) (e : LoadError), parseObject bytes = .error e →
    boot p h bytes = .error e)

/-- 30_encoding.md R119: a value is accepted for a signed field exactly when it is in the field's range, and the field then
holds it; out of range it is never truncated. The same for a trap vector and a `.FILL` literal. -/
def Obligations.FieldsAcceptExactlyTheirRange : Prop :=
  (∀ v : Int, (∃ f, signedField 5 v = some f) ↔ -16 ≤ v ∧ v ≤ 15) ∧
  (∀ v : Int, (∃ f, signedField 6 v = some f) ↔ -32 ≤ v ∧ v ≤ 31) ∧
  (∀ v : Int, (∃ f, signedField 9 v = some f) ↔ -256 ≤ v ∧ v ≤ 255) ∧
  (∀ v : Int, (∃ f, signedField 11 v = some f) ↔ -1024 ≤ v ∧ v ≤ 1023) ∧
  (∀ (n : Nat) (v : Int) (f : BitVec n), 0 < n → signedField n v = some f → f.toInt = v) ∧
  (∀ (v : Int) (f : BitVec 8), vectorField v = some f ↔ 0 ≤ v ∧ v ≤ 255 ∧ (f.toNat : Int) = v) ∧
  (∀ (v : Int) (w : Word), fillWord v = some w ↔ -32768 ≤ v ∧ v ≤ 65535 ∧ (w.toNat : Int) = v % 65536)

/-- 30_encoding.md R118, R119: a label operand is encoded as the label's value less A + 1, when that fits the field, and is
an EncodingRangeError otherwise; a label that is not bound is a SymbolError naming it. That the difference is one of integers,
not modulo 2^16, is the model's choice (log 13). -/
def Obligations.LabelOffsetsAreRelativeToTheNextWord : Prop :=
  (∀ (symbols : Symbols) (address value : Nat) (label : List Byte) (n z p : Bool),
    symbols.entry label = some (some value) →
    (∀ off : BitVec 9, off.toInt = (value : Int) - (address + 1) →
      bodyWords symbols address (.br n z p label) = .ok [encode (.br n z p off)]) ∧
    (¬(-256 ≤ (value : Int) - (address + 1) ∧ (value : Int) - (address + 1) ≤ 255) →
      bodyWords symbols address (.br n z p label) = .error .encodingRangeError)) ∧
  (∀ (symbols : Symbols) (address value : Nat) (label : List Byte) (kind : PcrKind) (r : RegIx),
    symbols.entry label = some (some value) →
    (∀ off : BitVec 9, off.toInt = (value : Int) - (address + 1) →
      bodyWords symbols address (.pcr kind r label) = .ok [encode (kind.instr r off)]) ∧
    (¬(-256 ≤ (value : Int) - (address + 1) ∧ (value : Int) - (address + 1) ≤ 255) →
      bodyWords symbols address (.pcr kind r label) = .error .encodingRangeError)) ∧
  (∀ (symbols : Symbols) (address value : Nat) (label : List Byte), symbols.entry label = some (some value) →
    (∀ off : BitVec 11, off.toInt = (value : Int) - (address + 1) →
      bodyWords symbols address (.jsr label) = .ok [encode (.jsr off)]) ∧
    (¬(-1024 ≤ (value : Int) - (address + 1) ∧ (value : Int) - (address + 1) ≤ 1023) →
      bodyWords symbols address (.jsr label) = .error .encodingRangeError)) ∧
  (∀ (symbols : Symbols) (address : Nat) (label : List Byte) (body : Body), body.label = some label →
    symbols.entry label = some none ∨ symbols.entry label = none →
    bodyWords symbols address body = .error (.symbolError label))

/-- 30_encoding.md R121, R122: what the assembler accepts, the loader accepts: an assembled object file starts with the
operand of its `.ORIG`, holds one word per occupied slot, and is never rejected. -/
def Obligations.AssembledFilesAreLoadable : Prop :=
  ∀ (p : AsmParams) (text file : List Byte), assembleFile p text = .ok file →
    ∃ (line line' : Nat) (rest : Tokens) (parsed : Parsed) (origin : Word) (words : List Word),
      lexFrom p.maxLexeme .idle 1 text =
        .ok ((line, .directive (bytesOf "ORIG")) :: (line', .imm origin.toNat) :: rest) ∧
      parseProgram p.symbolCapacity ((line, .directive (bytesOf "ORIG")) :: (line', .imm origin.toNat) :: rest) =
        .ok (origin.toNat, parsed) ∧
      words.length = (parsed.items.map fun item => item.body.slots).sum ∧
      words.length = parsed.counter - origin.toNat ∧
      assemble p text = .ok (origin :: words) ∧ parseObject file = .ok (origin, words)

/-! ## Runs -/

/-- 10_state.md R34, 00_scope.md R8: a run reads `INPUT` in order, finite or infinite. An iteration takes no byte, or takes the
next one into KBDR; and it blocks only when `INPUT` is exhausted. That it is a step of the core with the host's next byte
supplied first, exactly where the core has none, is the model's choice (log 4) among what 20_memory.md R69 permits. -/
def Obligations.RunsReadTheirInputInOrder : Prop :=
  (∀ r t : Run, runStep r = .next t →
    (∀ n : Nat, t.byteAt n = r.byteAt n) ∨
    (∃ c, r.byteAt 0 = some c ∧ t.core.kbdr = c.setWidth 16 ∧ ∀ n : Nat, t.byteAt n = r.byteAt (n + 1))) ∧
  (∀ r t : Run, r.core.input ≠ [] ∨ r.byteAt 0 = none → runStep r = .next t → step r.core = .next t.core) ∧
  (∀ (r t : Run) (c : Byte), r.core.input = [] → r.byteAt 0 = some c → runStep r = .next t →
    step (r.core.supply [c]) = .next t.core) ∧
  (∀ r : Run, r.core.status = .running →
    (∃ t, runStep r = .next t) ∨ (r.byteAt 0 = none ∧ runStep r = .fault .keyboardBlocked))

/-- 70_reset_and_hazards.md R229: every boot image has an entry at x0025, and its routine clears `MCR[15]` without reading
KBDR: a run whose first word is `TRAP x25`, that of an object of this word alone among them, halts without error and without
consuming input, whatever `INPUT` and the rest of the object are. What R229 asks of an image is read as the model's
`BootParams.HasHalt` (log 15). -/
def Obligations.HaltTrapEndsTheRun : Prop :=
  ∀ (p : BootParams) (h : p.HasHalt), (∃ entry : Word, (0x0025#16, entry) ∈ p.bootImage) ∧
    ∀ (object : List Byte) (r : Run), startRun p h object = .ok r → fetch r.core.pc r.core = 0xF025#16 →
      ∃ n t, stepTimes n r.core = .next t ∧ t.status = .halted ∧ t.mcr.getLsbD 15 = false ∧ t.input = r.core.input
end

