-- ==== Sys2Proof/Laws/Memory.lean ====
section
/-! SUPPORT. The laws of the storage: a read after a write, and that every memory operation keeps the canonical form. The
reading laws hold of every list, canonical or not. -/

namespace Sys2Proof.Machine

theorem Memory.read_erase_same (m : Memory) (a : Nat) : (m.erase a).read a = Memory.unlisted a := by
  induction m with
  | nil => rfl
  | cons c rest ih =>
    obtain ⟨k, v⟩ := c
    by_cases h : k = a
    · simpa [Memory.erase, h] using ih
    · simpa [Memory.erase, Memory.read, h] using ih

theorem Memory.read_erase_other (m : Memory) {a b : Nat} (hb : b ≠ a) : (m.erase a).read b = m.read b := by
  induction m with
  | nil => rfl
  | cons c rest ih =>
    obtain ⟨k, v⟩ := c
    by_cases h : k = a
    · have hk : k ≠ b := by omega
      simpa [Memory.erase, Memory.read, h, hk, show a ≠ b from hb.symm] using ih
    · by_cases hk : k = b
      · simp [Memory.erase, Memory.read, hk, hb]
      · simpa [Memory.erase, Memory.read, h, hk] using ih

theorem Memory.read_insert_other (m : Memory) {a b : Nat} (v : Word) (hb : b ≠ a) :
    (m.insert a v).read b = m.read b := by
  induction m with
  | nil => simp [Memory.insert, Memory.read, hb.symm]
  | cons c rest ih =>
    obtain ⟨k, w⟩ := c
    by_cases h : a < k
    · simp [Memory.insert, Memory.read, h, hb.symm]
    · rw [Memory.insert, if_neg h, Memory.read, Memory.read, ih]

theorem Memory.read_insert_same (m : Memory) (a : Nat) (v : Word) (h : ∀ c ∈ m, c.1 ≠ a) :
    (m.insert a v).read a = v := by
  induction m with
  | nil => simp [Memory.insert, Memory.read]
  | cons c rest ih =>
    obtain ⟨k, w⟩ := c
    have hk : k ≠ a := h (k, w) (by simp)
    have ih' := ih fun c hc => h c (by simp [hc])
    by_cases hl : a < k <;> simp [Memory.insert, Memory.read, hl, hk, ih']

theorem Memory.mem_erase {m : Memory} {a : Nat} {c : Cell} : c ∈ m.erase a ↔ c ∈ m ∧ c.1 ≠ a := by
  simp [Memory.erase]

/-- A read after a write to the same address gives the word written. -/
@[simp] theorem Memory.read_write_same (m : Memory) (a : Nat) (v : Word) : (m.write a v).read a = v := by
  unfold Memory.write
  split
  · rename_i h
    rw [Memory.read_erase_same, h]
  · exact Memory.read_insert_same _ _ _ fun c hc => (Memory.mem_erase.mp hc).2

/-- A write leaves every other address alone. -/
theorem Memory.read_write_other (m : Memory) {a b : Nat} (v : Word) (hb : b ≠ a) : (m.write a v).read b = m.read b := by
  unfold Memory.write
  split
  · exact Memory.read_erase_other m hb
  · rw [Memory.read_insert_other _ _ hb, Memory.read_erase_other m hb]

theorem Memory.mem_insert {m : Memory} {a : Nat} {v : Word} {c : Cell} : c ∈ m.insert a v ↔ c = (a, v) ∨ c ∈ m := by
  induction m with
  | nil => simp [Memory.insert]
  | cons d rest ih =>
    obtain ⟨k, w⟩ := d
    by_cases h : a < k
    · simp [Memory.insert, h]
    · simp only [Memory.insert, h, if_false, List.mem_cons, ih]
      tauto

theorem Memory.erase_wf {m : Memory} (a : Nat) (h : m.wf) : (m.erase a).wf :=
  ⟨h.1.filter _, fun c hc => h.2 c (Memory.mem_erase.mp hc).1⟩

theorem Memory.insert_pairwise {m : Memory} {a : Nat} (v : Word) (h : m.Pairwise fun c d => c.1 < d.1)
    (ha : ∀ c ∈ m, c.1 ≠ a) : (m.insert a v).Pairwise fun c d => c.1 < d.1 := by
  induction m with
  | nil => simp [Memory.insert]
  | cons d rest ih =>
    obtain ⟨k, w⟩ := d
    obtain ⟨hd, hr⟩ := List.pairwise_cons.mp h
    have hk : k ≠ a := ha (k, w) (by simp)
    by_cases hl : a < k
    · simp only [Memory.insert, hl, if_true]
      refine List.pairwise_cons.mpr ⟨fun c hc => ?_, h⟩
      rcases List.mem_cons.mp hc with rfl | hc
      · exact hl
      · exact Nat.lt_trans hl (hd c hc)
    · simp only [Memory.insert, hl, if_false]
      refine List.pairwise_cons.mpr ⟨fun c hc => ?_, ih hr fun c hc => ha c (by simp [hc])⟩
      rcases Memory.mem_insert.mp hc with rfl | hc
      · simp only; omega
      · exact hd c hc

/-- A write within the address space keeps the canonical form. -/
theorem Memory.write_wf {m : Memory} {a : Nat} (v : Word) (h : m.wf) (ha : a < 65536) : (m.write a v).wf := by
  unfold Memory.write
  split
  · exact Memory.erase_wf a h
  · rename_i hv
    have he := Memory.erase_wf a h
    refine ⟨Memory.insert_pairwise v he.1 fun c hc => (Memory.mem_erase.mp hc).2, fun c hc => ?_⟩
    rcases Memory.mem_insert.mp hc with rfl | hc
    · exact ⟨ha, hv⟩
    · exact he.2 c hc

/-- Writing at a 16-bit address keeps the canonical form. -/
theorem Memory.write_word_wf {m : Memory} (a v : Word) (h : m.wf) : (m.write a.toNat v).wf :=
  Memory.write_wf v h a.isLt

/-- Loading words that fit the address space keeps the canonical form. -/
theorem Memory.loadWords_wf {m : Memory} {a : Nat} {words : List Word} (h : m.wf) (fits : a + words.length ≤ 65536) :
    (m.loadWords a words).wf := by
  induction words generalizing m a with
  | nil => exact h
  | cons w rest ih =>
    simp only [List.length_cons] at fits
    exact ih (Memory.write_wf w h (by omega)) (by omega)

/-- Installing an image keeps the canonical form. -/
theorem Memory.install_wf {m : Memory} (image : List (Word × Word)) (h : m.wf) : (m.install image).wf := by
  induction image generalizing m with
  | nil => exact h
  | cons c rest ih => exact ih (Memory.write_word_wf c.1 c.2 h)

theorem Memory.nil_wf : Memory.wf [] := by simp [Memory.wf]

theorem Memory.zeroed_wf : Memory.zeroed.wf := Memory.install_wf _ Memory.nil_wf

/-- The memory of the reset state has the canonical form. -/
theorem State.reset_mem_wf : State.reset.mem.wf := Memory.nil_wf

/-- The memory after a boot from an object file that the loader accepts has the canonical form. -/
theorem bootMemory_wf (p : BootParams) {origin : Word} {words : List Word}
    (fits : origin.toNat + words.length ≤ 65536) : (bootMemory p origin words).wf :=
  Memory.install_wf _ (Memory.loadWords_wf Memory.zeroed_wf fits)

end Sys2Proof.Machine
end

