-- ==== Sys2Proof/Laws/State.lean ====
section
/-! SUPPORT. What each update of State leaves in each field: one lemma per field per update. -/

namespace Sys2Proof.Machine

section Registers

variable (s : State) (r q : RegIx) (v : Word)

theorem State.reg_setReg : (s.setReg r v).reg q = if r = q then v else s.reg q := by
  simp only [State.reg, State.setReg, Vector.get_eq_getElem, Vector.getElem_set, Fin.ext_iff]

@[simp] theorem State.reg_setReg_same : (s.setReg r v).reg r = v := by simp [State.reg_setReg]

theorem State.reg_setReg_other (h : r ≠ q) : (s.setReg r v).reg q = s.reg q := by simp [State.reg_setReg, h]

end Registers

section SetReg

variable (s : State) (r : RegIx) (v : Word)

@[simp] theorem setReg_x : (s.setReg r v).x = s.x.set r v := rfl
@[simp] theorem setReg_pc : (s.setReg r v).pc = s.pc := rfl
@[simp] theorem setReg_psr : (s.setReg r v).psr = s.psr := rfl
@[simp] theorem setReg_mem : (s.setReg r v).mem = s.mem := rfl
@[simp] theorem setReg_kbsr : (s.setReg r v).kbsr = s.kbsr := rfl
@[simp] theorem setReg_kbdr : (s.setReg r v).kbdr = s.kbdr := rfl
@[simp] theorem setReg_dsr : (s.setReg r v).dsr = s.dsr := rfl
@[simp] theorem setReg_ddr : (s.setReg r v).ddr = s.ddr := rfl
@[simp] theorem setReg_mcr : (s.setReg r v).mcr = s.mcr := rfl
@[simp] theorem setReg_status : (s.setReg r v).status = s.status := rfl
@[simp] theorem setReg_input : (s.setReg r v).input = s.input := rfl
@[simp] theorem setReg_output : (s.setReg r v).output = s.output := rfl

end SetReg

section SetPc

variable (s : State) (v : Word)

@[simp] theorem setPc_x : (s.setPc v).x = s.x := rfl
@[simp] theorem setPc_pc : (s.setPc v).pc = v := rfl
@[simp] theorem setPc_psr : (s.setPc v).psr = s.psr := rfl
@[simp] theorem setPc_mem : (s.setPc v).mem = s.mem := rfl
@[simp] theorem setPc_kbsr : (s.setPc v).kbsr = s.kbsr := rfl
@[simp] theorem setPc_kbdr : (s.setPc v).kbdr = s.kbdr := rfl
@[simp] theorem setPc_dsr : (s.setPc v).dsr = s.dsr := rfl
@[simp] theorem setPc_ddr : (s.setPc v).ddr = s.ddr := rfl
@[simp] theorem setPc_mcr : (s.setPc v).mcr = s.mcr := rfl
@[simp] theorem setPc_status : (s.setPc v).status = s.status := rfl
@[simp] theorem setPc_input : (s.setPc v).input = s.input := rfl
@[simp] theorem setPc_output : (s.setPc v).output = s.output := rfl
@[simp] theorem setPc_reg (q : RegIx) : (s.setPc v).reg q = s.reg q := rfl

end SetPc

section Setcc

variable (v : Word) (s : State)

@[simp] theorem setcc_x : (setcc v s).x = s.x := rfl
@[simp] theorem setcc_pc : (setcc v s).pc = s.pc := rfl
@[simp] theorem setcc_psr : (setcc v s).psr = withCc s.psr (ccOf v) := rfl
@[simp] theorem setcc_mem : (setcc v s).mem = s.mem := rfl
@[simp] theorem setcc_kbsr : (setcc v s).kbsr = s.kbsr := rfl
@[simp] theorem setcc_kbdr : (setcc v s).kbdr = s.kbdr := rfl
@[simp] theorem setcc_dsr : (setcc v s).dsr = s.dsr := rfl
@[simp] theorem setcc_ddr : (setcc v s).ddr = s.ddr := rfl
@[simp] theorem setcc_mcr : (setcc v s).mcr = s.mcr := rfl
@[simp] theorem setcc_status : (setcc v s).status = s.status := rfl
@[simp] theorem setcc_input : (setcc v s).input = s.input := rfl
@[simp] theorem setcc_output : (setcc v s).output = s.output := rfl
@[simp] theorem setcc_reg (q : RegIx) : (setcc v s).reg q = s.reg q := rfl

end Setcc

section Halt

variable (s : State)

@[simp] theorem halt_x : s.halt.x = s.x := rfl
@[simp] theorem halt_pc : s.halt.pc = s.pc := rfl
@[simp] theorem halt_psr : s.halt.psr = s.psr := rfl
@[simp] theorem halt_mem : s.halt.mem = s.mem := rfl
@[simp] theorem halt_kbsr : s.halt.kbsr = s.kbsr := rfl
@[simp] theorem halt_kbdr : s.halt.kbdr = s.kbdr := rfl
@[simp] theorem halt_dsr : s.halt.dsr = s.dsr := rfl
@[simp] theorem halt_ddr : s.halt.ddr = s.ddr := rfl
@[simp] theorem halt_mcr : s.halt.mcr = s.mcr := rfl
@[simp] theorem halt_status : s.halt.status = .halted := rfl
@[simp] theorem halt_input : s.halt.input = s.input := rfl
@[simp] theorem halt_output : s.halt.output = s.output := rfl
@[simp] theorem halt_reg (q : RegIx) : s.halt.reg q = s.reg q := rfl

end Halt

section Supply

variable (s : State) (bs : List Byte)

@[simp] theorem supply_x : (s.supply bs).x = s.x := rfl
@[simp] theorem supply_pc : (s.supply bs).pc = s.pc := rfl
@[simp] theorem supply_psr : (s.supply bs).psr = s.psr := rfl
@[simp] theorem supply_mem : (s.supply bs).mem = s.mem := rfl
@[simp] theorem supply_kbsr : (s.supply bs).kbsr = s.kbsr := rfl
@[simp] theorem supply_kbdr : (s.supply bs).kbdr = s.kbdr := rfl
@[simp] theorem supply_dsr : (s.supply bs).dsr = s.dsr := rfl
@[simp] theorem supply_ddr : (s.supply bs).ddr = s.ddr := rfl
@[simp] theorem supply_mcr : (s.supply bs).mcr = s.mcr := rfl
@[simp] theorem supply_status : (s.supply bs).status = s.status := rfl
@[simp] theorem supply_input : (s.supply bs).input = s.input ++ bs := rfl
@[simp] theorem supply_output : (s.supply bs).output = s.output := rfl
@[simp] theorem supply_reg (q : RegIx) : (s.supply bs).reg q = s.reg q := rfl

end Supply

section WriteResult

variable (r : RegIx) (v : Word) (s : State)

@[simp] theorem writeResult_x : (writeResult r v s).x = s.x.set r v := rfl
@[simp] theorem writeResult_pc : (writeResult r v s).pc = s.pc := rfl
@[simp] theorem writeResult_psr : (writeResult r v s).psr = withCc s.psr (ccOf v) := rfl
@[simp] theorem writeResult_mem : (writeResult r v s).mem = s.mem := rfl
@[simp] theorem writeResult_kbsr : (writeResult r v s).kbsr = s.kbsr := rfl
@[simp] theorem writeResult_kbdr : (writeResult r v s).kbdr = s.kbdr := rfl
@[simp] theorem writeResult_dsr : (writeResult r v s).dsr = s.dsr := rfl
@[simp] theorem writeResult_ddr : (writeResult r v s).ddr = s.ddr := rfl
@[simp] theorem writeResult_mcr : (writeResult r v s).mcr = s.mcr := rfl
@[simp] theorem writeResult_status : (writeResult r v s).status = s.status := rfl
@[simp] theorem writeResult_input : (writeResult r v s).input = s.input := rfl
@[simp] theorem writeResult_output : (writeResult r v s).output = s.output := rfl
theorem writeResult_reg (q : RegIx) : (writeResult r v s).reg q = if r = q then v else s.reg q :=
  State.reg_setReg s r q v

end WriteResult

end Sys2Proof.Machine
end

