-- ==== Sys2Proof/Laws/Flags.lean ====
section
/-! SUPPORT. What the flag computations do to the bits of the PSR. -/

namespace Sys2Proof.Machine

/-- The bits of the PSR after its condition codes are replaced. -/
theorem withCc_getLsbD (psr : Word) (cc : BitVec 3) (k : Nat) (hk : k < 16) :
    (withCc psr cc).getLsbD k = if k < 3 then cc.getLsbD k else psr.getLsbD k := by
  rw [withCc, BitVec.getLsbD_append]
  split
  · rfl
  · rename_i h
    have h13 : k - 3 < 13 := by omega
    simp only [BitVec.getLsbD_extractLsb', h13, decide_true, Bool.true_and]
    congr 1
    omega

@[simp] theorem withCc_low (psr : Word) (cc : BitVec 3) : (withCc psr cc).extractLsb' 0 3 = cc := by
  ext k hk
  simp only [BitVec.getElem_extractLsb', Nat.zero_add, withCc_getLsbD psr cc k (by omega), hk, if_true,
    BitVec.getLsbD_eq_getElem]

/-- The condition codes after `setcc(v)` are the flags of `v`. -/
@[simp] theorem cc_setcc (v : Word) (s : State) : (setcc v s).cc = ccOf v := by
  simp [State.cc]

/-- `setcc` leaves the privilege bit alone. -/
@[simp] theorem userMode_setcc (v : Word) (s : State) : (setcc v s).userMode = s.userMode := by
  show (withCc s.psr (ccOf v)).getLsbD 15 = s.psr.getLsbD 15
  rw [withCc_getLsbD _ _ _ (by decide), if_neg (by decide)]

/-- The three values `ccOf` takes, each with what it says of `v`. -/
theorem ccOf_cases (v : Word) :
    (v.toInt < 0 ∧ ccOf v = 0b100#3) ∨ (v.toInt = 0 ∧ ccOf v = 0b010#3) ∨ (0 < v.toInt ∧ ccOf v = 0b001#3) := by
  have hneg : v.getLsbD 15 = true ↔ v.toInt < 0 := by
    rw [← BitVec.msb_eq_getLsbD_last (x := v), BitVec.msb_eq_toInt]; simp
  have hzero : v = 0#16 ↔ v.toInt = 0 := by
    rw [← BitVec.toInt_inj]; simp
  unfold ccOf
  by_cases h : v.toInt < 0
  · exact .inl ⟨h, if_pos (hneg.mpr h)⟩
  · rw [if_neg (mt hneg.mp h)]
    by_cases hz : v.toInt = 0
    · exact .inr (.inl ⟨hz, if_pos (hzero.mpr hz)⟩)
    · exact .inr (.inr ⟨by omega, if_neg (mt hzero.mp hz)⟩)

end Sys2Proof.Machine
end

