-- ==== Sys2Proof/Laws/Ops.lean ====
section
/-! SUPPORT. Everything each shared operation can do, once: the accessor, the continuation after a read, runtime errors, trap
entry and the return from one. -/

namespace Sys2Proof.Machine

/-- The six cases of the address decoder, each with the address it is for. -/
theorem select_cases (a : Word) :
    (a = 0xFE00#16 ∧ select a = .kbsr) ∨ (a = 0xFE02#16 ∧ select a = .kbdr) ∨ (a = 0xFE04#16 ∧ select a = .dsr) ∨
    (a = 0xFE06#16 ∧ select a = .ddr) ∨ (a = 0xFFFE#16 ∧ select a = .mcr) ∨
    (a ∉ ([0xFE00#16, 0xFE02#16, 0xFE04#16, 0xFE06#16, 0xFFFE#16] : List Word) ∧ select a = .ram) := by
  unfold select
  repeat' split
  all_goals simp_all

/-- Only xFE02 selects KBDR. -/
theorem select_eq_kbdr {a : Word} : select a = .kbdr ↔ a = 0xFE02#16 := by
  constructor
  · intro h
    rcases select_cases a with ⟨-, hs⟩ | ⟨ha, -⟩ | ⟨-, hs⟩ | ⟨-, hs⟩ | ⟨-, hs⟩ | ⟨-, hs⟩ <;> simp_all
  · rintro rfl
    rfl

/-- Everything a data read can answer: the word that `Fetch` gives and the same state; at KBDR one byte of the input; or a
block at KBDR. -/
theorem memRead_cases (a : Word) (s : State) :
    (select a ≠ .kbdr ∧ memRead a s = .ok (fetch a s, s)) ∨
    (select a = .kbdr ∧ ∃ c rest, s.input = c :: rest ∧
      memRead a s = .ok (zext16 c, { s with kbdr := zext16 c, input := rest })) ∨
    (select a = .kbdr ∧ s.input = [] ∧ memRead a s = .error .keyboardBlocked) := by
  unfold memRead fetch
  cases h : select a <;> simp
  cases s.input <;> simp

/-- A data read that answers leaves everything but KBDR and the input alone. -/
theorem memRead_ok {a v : Word} {s t : State} (h : memRead a s = .ok (v, t)) :
    t = { s with kbdr := t.kbdr, input := t.input } := by
  rcases memRead_cases a s with ⟨-, he⟩ | ⟨-, c, rest, -, he⟩ | ⟨-, -, he⟩ <;> rw [he] at h <;> cases h <;> rfl

/-- The accessor's answer where the words of the spec say what a data read gives. -/
theorem memRead_of_readsWord {a v : Word} {s t : State} (h : ReadsWord a v s t) : memRead a s = .ok (v, t) := by
  obtain ⟨hkbdr, hkbsr, hdsr, hddr, hmcr, hram⟩ := h
  rcases select_cases a with ⟨ha, hs⟩ | ⟨ha, hs⟩ | ⟨ha, hs⟩ | ⟨ha, hs⟩ | ⟨ha, hs⟩ | ⟨ha, hs⟩
  · obtain ⟨rfl, rfl⟩ := hkbsr ha
    simp [memRead, hs]
  · obtain ⟨c, rest, hi, rfl, rfl⟩ := hkbdr ha
    simp [memRead, hs, hi, zext16]
  · obtain ⟨rfl, rfl⟩ := hdsr ha
    simp [memRead, hs]
  · obtain ⟨rfl, rfl⟩ := hddr ha
    simp [memRead, hs]
  · obtain ⟨rfl, rfl⟩ := hmcr ha
    simp [memRead, hs]
  · obtain ⟨rfl, rfl⟩ := hram ha
    simp [memRead, hs]

/-- The only fault of a data read is the block at KBDR with no input. -/
theorem memRead_error {a : Word} {s : State} {f : Fault} (h : memRead a s = .error f) :
    f = .keyboardBlocked ∧ select a = .kbdr ∧ s.input = [] := by
  rcases memRead_cases a s with ⟨-, he⟩ | ⟨-, c, rest, -, he⟩ | ⟨hk, hi, he⟩ <;> rw [he] at h <;> cases h
  exact ⟨rfl, hk, hi⟩

/-- A read outside KBDR gives the word `Fetch` gives and changes nothing. -/
theorem memRead_of_ne_kbdr {a : Word} {s : State} (h : select a ≠ .kbdr) : memRead a s = .ok (fetch a s, s) := by
  rcases memRead_cases a s with ⟨-, he⟩ | ⟨hk, -⟩ | ⟨hk, -⟩
  · exact he
  · exact absurd hk h
  · exact absurd hk h

/-- A read of a RAM word goes on with it, from the same state. -/
theorem readThen_ram {a : Word} {s : State} (k : Word → State → Result) (hs : select a = .ram) :
    readThen a s k = k (s.mem.read a.toNat) s := by
  rw [readThen, memRead, hs]

/-- If reading and going on answers a next state, the read answered and what follows it did. -/
theorem readThen_next {a : Word} {s t : State} {k : Word → State → Result} (h : readThen a s k = .next t) :
    ∃ v m, memRead a s = .ok (v, m) ∧ k v m = .next t := by
  unfold readThen at h
  split at h
  · rename_i v m he
    exact ⟨v, m, he, h⟩
  · cases h

/-- If reading and going on faults, the read blocked or what follows it faulted. -/
theorem readThen_fault {a : Word} {s : State} {k : Word → State → Result} {f : Fault} (h : readThen a s k = .fault f) :
    (f = .keyboardBlocked ∧ select a = .kbdr ∧ s.input = []) ∨ ∃ v m, memRead a s = .ok (v, m) ∧ k v m = .fault f := by
  unfold readThen at h
  split at h
  · rename_i v m he
    exact .inr ⟨v, m, he, h⟩
  · rename_i g he
    cases h
    exact .inl (memRead_error he)

theorem readThen_ok {a v : Word} {s m : State} (k : Word → State → Result) (h : memRead a s = .ok (v, m)) :
    readThen a s k = k v m := by
  simp [readThen, h]

/-- The entries of the trap vector table are RAM (43_system.md R180). -/
theorem select_trapEntry (vect : BitVec 8) : select (trapEntry vect) = .ram := by
  have hlt : (trapEntry vect).toNat < 256 := by
    have hv : vect.toNat < 256 := vect.isLt
    simp only [trapEntry, zext16, BitVec.toNat_setWidth]
    omega
  have ne : ∀ d : Word, 256 ≤ d.toNat → trapEntry vect ≠ d := by
    intro d hd he
    rw [he] at hlt
    omega
  simp [select, ne 0xFE00#16 (by decide), ne 0xFE02#16 (by decide), ne 0xFE04#16 (by decide), ne 0xFE06#16 (by decide),
    ne 0xFFFE#16 (by decide)]

/-- A data write leaves the registers, the pc, the PSR, the run state and the input alone. -/
theorem memWrite_keeps (a v : Word) (s : State) :
    (memWrite a v s).x = s.x ∧ (memWrite a v s).pc = s.pc ∧ (memWrite a v s).psr = s.psr ∧
      (memWrite a v s).status = s.status ∧ (memWrite a v s).input = s.input := by
  unfold memWrite
  cases select a <;> simp

/-- The storage after a data write. -/
theorem memWrite_mem (a v : Word) (s : State) :
    (memWrite a v s).mem = if select a = .ram then s.mem.write a.toNat v else s.mem := by
  unfold memWrite
  cases select a <;> simp

/-- The output after a data write. -/
theorem memWrite_output (a v : Word) (s : State) :
    (memWrite a v s).output = if select a = .ddr then s.output ++ [v.extractLsb' 0 8] else s.output := by
  unfold memWrite
  cases select a <;> simp

/-- A data write keeps the canonical form of the storage. -/
theorem memWrite_mem_wf {a v : Word} {s : State} (h : s.mem.wf) : (memWrite a v s).mem.wf := by
  rw [memWrite_mem]
  split
  · exact Memory.write_word_wf a v h
  · exact h

/-- A runtime error writes nothing but the run state. -/
theorem raiseError_next {kind : ErrorKind} {s t : State} (h : raiseError kind s = .next t) :
    t = { s with status := .error kind } := by
  cases h; rfl

/-- Everything trap entry does: it always answers, with R7 the return address and the pc the table's word. -/
theorem enterTrap_trapEntry (vect : BitVec 8) (s : State) :
    enterTrap (trapEntry vect) s = .next (s.link.setPc (s.mem.read (trapEntry vect).toNat)) := by
  have hs : select (trapEntry vect) ≠ .kbdr := by simp [select_trapEntry]
  rw [enterTrap, readThen_ok _ (memRead_of_ne_kbdr hs)]
  simp [fetch, select_trapEntry, State.link]

/-- If the return from a trap answers, both pops did, and the pc and the PSR hold the popped words. -/
theorem returnFromTrap_next {s t : State} (h : returnFromTrap s = .next t) :
    ∃ target m status u, memRead (s.reg 6) s = .ok (target, m) ∧
      memRead ((m.setPc target).bumpStack.reg 6) (m.setPc target).bumpStack = .ok (status, u) ∧
      t = State.bumpStack { u with psr := status } := by
  obtain ⟨target, m, hm, h⟩ := readThen_next h
  obtain ⟨status, u, hu, h⟩ := readThen_next h
  cases h
  exact ⟨target, m, status, u, hm, hu, rfl⟩

end Sys2Proof.Machine
end

