-- ==== Sys2Proof/Laws/Step.lean ====
section
/-! SUPPORT. Everything one step can do. -/

namespace Sys2Proof.Machine

/-- If a step answers a next state, the machine was running, and either the halt check ended the run or the instruction at
the pc answered that state. -/
theorem step_next {s t : State} (h : step s = .next t) :
    s.status = .running ∧
      ((s.runBit = false ∧ t = s.halt) ∨ (s.runBit = true ∧ exec s.current s.advance = .next t)) := by
  unfold step at h
  cases hs : s.status <;> simp only [hs] at h
  · cases hr : s.runBit <;> simp only [hr] at h
    · cases h; simp
    · exact ⟨rfl, .inr ⟨rfl, h⟩⟩
  · cases h
  · cases h

/-- If a step faults, the run was over, or the instruction at the pc faulted. -/
theorem step_fault {s : State} {f : Fault} (h : step s = .fault f) :
    (s.status ≠ .running ∧ f = .runOver) ∨
      (s.status = .running ∧ s.runBit = true ∧ exec s.current s.advance = .fault f) := by
  unfold step at h
  cases hs : s.status <;> simp only [hs] at h
  · cases hr : s.runBit <;> simp only [hr] at h
    · cases h
    · exact .inr ⟨rfl, rfl, h⟩
  · cases h; simp
  · cases h; simp

/-- An iteration of a running core whose run bit is set. -/
theorem step_of_ready {s : State} (h : Ready s) : step s = exec s.current s.advance := by
  simp [step, h.1, State.runBit, h.2]

/-- An iteration at a RAM address whose word is known. -/
theorem step_of_word {s : State} {w : Word} (hr : Ready s) (hs : select s.pc = .ram) (hw : s.mem.read s.pc.toNat = w) :
    step s = exec (decode w) s.advance := by
  rw [step_of_ready hr, State.current, fetch, hs, hw]

end Sys2Proof.Machine
end

