-- ==== Sys2Proof/Laws/Boot.lean ====
section
/-! SUPPORT. What an installed image reads as, what one run-loop iteration of a run can do, and that the reference image
meets 70_reset_and_hazards.md R229. -/

namespace Sys2Proof.Machine

/-- The word at an address after an image is installed: the last one that the image gives it, or else the word that was
there. -/
theorem Memory.read_install (m : Memory) (image : List (Word × Word)) (a : Nat) :
    (m.install image).read a = image.foldl (fun w c => if c.1.toNat = a then c.2 else w) (m.read a) := by
  induction image generalizing m with
  | nil => rfl
  | cons c rest ih =>
    rw [Memory.install, ih, List.foldl_cons]
    split
    · next h => rw [← h, Memory.read_write_same]
    · next h => rw [Memory.read_write_other _ _ (Ne.symm h)]

/-- The iterations after the first. -/
theorem stepTimes_of_step {n : Nat} {s t : State} (h : step s = .next t) : stepTimes (n + 1) s = stepTimes n t := by
  simp [stepTimes, h]

/-- A host that supplies its next byte to a core that has none changes nothing of what is still to be read. -/
theorem Run.byteAt_feed (r : Run) (n : Nat) : r.feed.byteAt n = r.byteAt n := by
  obtain ⟨core, host⟩ := r
  cases hi : core.input with
  | cons c rest => simp [Run.feed, hi]
  | nil =>
    cases host with
    | endless byte => cases n <;> simp [Run.feed, Run.byteAt, Input.uncons, Input.byteAt, hi]
    | finite bytes =>
      cases bytes with
      | nil => simp [Run.feed, Input.uncons, hi]
      | cons c rest => cases n <;> simp [Run.feed, Run.byteAt, Input.uncons, Input.byteAt, hi]

/-- An iteration of a run is a step of the core after the host's supply. -/
theorem runStep_next {r t : Run} (h : runStep r = .next t) :
    step r.feed.core = .next t.core ∧ t.host = r.feed.host := by
  unfold runStep at h
  split at h <;> cases h
  exact ⟨‹_›, rfl⟩

/-- An iteration whose instruction writes one result leaves the core ready at the next word, with the same storage and the
same MCR. -/
theorem result_advance (r : RegIx) (v : Word) {s t : State} (ht : t = writeResult r v s.advance) (hr : Ready s) :
    Ready t ∧ t.pc = s.pc + 1#16 ∧ t.mem = s.mem ∧ t.mcr = s.mcr ∧ ∀ q, t.reg q = if r = q then v else s.reg q := by
  subst ht
  exact ⟨hr, rfl, rfl, rfl, fun q => writeResult_reg r v _ q⟩

/-- The HALT routine clears the run bit, with no input, and the next halt check ends the run (70_reset_and_hazards.md
R228). -/
theorem halt_routine {s : State} (hr : Ready s) (hp : s.pc = 0x0470#16) 
    (hm : ∀ c ∈ BootImage.haltRoutine, s.mem.read c.1.toNat = c.2) :
    ∃ t, stepTimes 5 s = .next t ∧ t.status = .halted ∧ t.mcr.getLsbD 15 = false := by
  simp only [BootImage.haltRoutine, List.forall_mem_cons] at hm
  obtain ⟨h0, h1, h2, h3, h4, h5, -⟩ := hm
  have e1 : step s = .next (writeResult 0 s.mcr s.advance) := by
    rw [step_of_word (w := 0xA003#16) hr (by rw [hp]; rfl) (by rw [hp]; exact h0)]
    show readThen (s.pc + 1#16 + 3#16) _ _ = _
    rw [hp, readThen_ram _ rfl]
    show readThen (s.mem.read 0x0474) _ _ = _
    rw [show s.mem.read 0x0474 = 0xFFFE#16 from h4]
    rfl
  obtain ⟨s1, hs1⟩ : ∃ s1, s1 = writeResult 0 s.mcr s.advance := ⟨_, rfl⟩
  obtain ⟨hr1, hp1, hm1, -, hx1⟩ := result_advance _ _ hs1 hr
  rw [hp] at hp1
  have e2 : step s1 = .next (writeResult 1 0x7FFF#16 s1.advance) := by
    rw [step_of_word (w := 0x2203#16) hr1 (by rw [hp1]; rfl) (by rw [hp1, hm1]; exact h1)]
    show readThen (s1.pc + 1#16 + 3#16) _ _ = _
    rw [hp1, readThen_ram _ rfl]
    show Host.Outcome.next (writeResult 1 (s1.mem.read 0x0475) _) = _
    rw [show s1.mem.read 0x0475 = 0x7FFF#16 by rw [hm1]; exact h5]
  obtain ⟨s2, hs2⟩ : ∃ s2, s2 = writeResult 1 0x7FFF#16 s1.advance := ⟨_, rfl⟩
  obtain ⟨hr2, hp2, hm2, -, hx2⟩ := result_advance _ _ hs2 hr1
  rw [hp1] at hp2
  rw [hm1] at hm2
  have e3 : step s2 = .next (writeResult 0 (s2.reg 0 &&& s2.reg 1) s2.advance) := by
    rw [step_of_word (w := 0x5001#16) hr2 (by rw [hp2]; rfl) (by rw [hp2, hm2]; exact h2)]
    rfl
  obtain ⟨s3, hs3⟩ : ∃ s3, s3 = writeResult 0 (s2.reg 0 &&& s2.reg 1) s2.advance := ⟨_, rfl⟩
  obtain ⟨hr3, hp3, hm3, -, hx3⟩ := result_advance _ _ hs3 hr2
  rw [hp2] at hp3
  rw [hm2] at hm3
  have hclear : (s3.reg 0).getLsbD 15 = false := by
    rw [hx3 0, hx2 1]
    simp
  have e4 : step s3 = .next (memWrite 0xFFFE#16 (s3.reg 0) s3.advance) := by
    rw [step_of_word (w := 0xB000#16) hr3 (by rw [hp3]; rfl) (by rw [hp3, hm3]; exact h3)]
    show readThen (s3.pc + 1#16 + 0#16) _ _ = _
    rw [hp3, readThen_ram _ rfl]
    show Host.Outcome.next (memWrite (s3.mem.read 0x0474) _ _) = _
    rw [show s3.mem.read 0x0474 = 0xFFFE#16 by rw [hm3]; exact h4]
    rfl
  have e5 : step (memWrite 0xFFFE#16 (s3.reg 0) s3.advance) =
      .next (memWrite 0xFFFE#16 (s3.reg 0) s3.advance).halt := by
    have hrun : (memWrite 0xFFFE#16 (s3.reg 0) s3.advance).status = .running := hr3.1
    have hbit : (memWrite 0xFFFE#16 (s3.reg 0) s3.advance).runBit = false := hclear
    simp [step, hrun, hbit]
  rw [← hs1] at e1
  rw [← hs2] at e2
  rw [← hs3] at e3
  rw [stepTimes_of_step e1, stepTimes_of_step e2, stepTimes_of_step e3, stepTimes_of_step e4, stepTimes_of_step e5]
  exact ⟨_, rfl, rfl, hclear⟩

/-- Iterations one after the other: what the later ones answer, once the earlier ones have a next state. -/
theorem stepTimes_add {m n : Nat} {s t : State} (h : stepTimes m s = .next t) : stepTimes (m + n) s = stepTimes n t := by
  induction m generalizing s with
  | zero => cases h; rw [Nat.zero_add]
  | succ m ih =>
    cases hs : step s with
    | next u =>
      rw [stepTimes_of_step hs] at h
      rw [Nat.add_right_comm, stepTimes_of_step hs, ih h]
    | fault f => simp [stepTimes, hs] at h
    | refused r => simp [stepTimes, hs] at h

/-- Iterations that have a next state had one at every point on the way. -/
theorem stepTimes_of_le {m n : Nat} {s t : State} (h : stepTimes n s = .next t) (hle : m ≤ n) :
    ∃ u, stepTimes m s = .next u := by
  induction m generalizing s n with
  | zero => exact ⟨s, rfl⟩
  | succ m ih =>
    obtain ⟨n, rfl⟩ : ∃ k, n = k + 1 := ⟨n - 1, by omega⟩
    cases hs : step s with
    | next u =>
      rw [stepTimes_of_step hs] at h ⊢
      exact ih h (by omega)
    | fault f => simp [stepTimes, hs] at h
    | refused r => simp [stepTimes, hs] at h

/-- A run that halts is never blocked. -/
theorem stepTimes_ne_blocked {k : Nat} {s t : State} (h : stepTimes k s = .next t) (ht : t.status = .halted) (n : Nat) :
    stepTimes n s ≠ .fault .keyboardBlocked := by
  intro hb
  by_cases hle : n ≤ k
  · obtain ⟨u, hu⟩ := stepTimes_of_le h hle
    rw [hu] at hb
    cases hb
  · obtain ⟨d, rfl⟩ : ∃ d, n = k + (d + 1) := ⟨n - k - 1, by omega⟩
    rw [stepTimes_add h] at hb
    simp [stepTimes, step, ht] at hb

section AtHaltRoutine

variable (image : List (Word × Word)) (s : State)

@[simp] theorem atHaltRoutine_pc : (atHaltRoutine image s).pc = (s.mem.install image).read 0x0025 := rfl
@[simp] theorem atHaltRoutine_mem : (atHaltRoutine image s).mem = s.mem.install image := rfl
@[simp] theorem atHaltRoutine_input : (atHaltRoutine image s).input = [] := rfl
@[simp] theorem atHaltRoutine_mcr : (atHaltRoutine image s).mcr = s.mcr := rfl
@[simp] theorem atHaltRoutine_status : (atHaltRoutine image s).status = s.status := rfl

end AtHaltRoutine

/-- The routine of the reference image ends the run from every state. -/
theorem reference_halts {s : State} (hr : s.status = .running) (hb : s.runBit = true) :
    ∃ t, stepTimes 5 (atHaltRoutine BootImage.reference s) = .next t ∧ t.status = .halted ∧
      t.mcr.getLsbD 15 = false := by
  have ready : Ready (atHaltRoutine BootImage.reference s) := by
    rw [Ready, atHaltRoutine_status, atHaltRoutine_mcr]
    exact ⟨hr, hb⟩
  have entry : (atHaltRoutine BootImage.reference s).pc = 0x0470#16 := by
    rw [atHaltRoutine_pc, Memory.read_install]
    rfl
  refine halt_routine ready entry ?_
  simp only [atHaltRoutine_mem, BootImage.haltRoutine, List.forall_mem_cons, Memory.read_install]
  exact ⟨rfl, rfl, rfl, rfl, rfl, rfl, fun _ hc => absurd hc List.not_mem_nil⟩

/-- The reference image meets R229, with every other parameter. -/
theorem hasHalt_of_reference {p : BootParams} (h : p.bootImage = BootImage.reference) : p.HasHalt := by
  refine ⟨⟨0x0470#16, by rw [h]; decide⟩, fun s hr _ hd => ?_, fun s hr hb n => ?_⟩
  · rw [h]
    exact ⟨5, reference_halts hr (by rw [State.runBit, hd.2.2.2.2]; decide)⟩
  · rw [h]
    obtain ⟨t, ht, hs, -⟩ := reference_halts hr hb
    exact stepTimes_ne_blocked ht hs n

end Sys2Proof.Machine
end

