-- ==== Sys2Proof/Laws/Decode.lean ====
section
/-! SUPPORT. The bits of the decoder's fields. -/

namespace Sys2Proof.Machine

/-- The bits of a word whose opcode is known. -/
theorem opcodeOf_bits {w : Word} {o : BitVec 4} (h : opcodeOf w = o) :
    w.getLsbD 15 = o.getLsbD 3 ∧ w.getLsbD 14 = o.getLsbD 2 ∧ w.getLsbD 13 = o.getLsbD 1 ∧
      w.getLsbD 12 = o.getLsbD 0 := by
  subst h
  simp only [opcodeOf, BitVec.getLsbD_extractLsb']
  exact ⟨rfl, rfl, rfl, rfl⟩

/-- The register field from bit `lo` up is `r` if its three bits are those of `r`'s number. -/
theorem regAt_eq {w : Word} {lo : Nat} {r : RegIx}
    (h : ∀ k, k < 3 → w.getLsbD (lo + k) = (BitVec.ofFin r : BitVec 3).getLsbD k) : regAt w lo = r := by
  have hw : w.extractLsb' lo 3 = BitVec.ofFin r := by
    ext k hk
    simp only [BitVec.getElem_extractLsb', h k hk]
    exact BitVec.getLsbD_eq_getElem hk
  rw [regAt, hw]

/-- A field of `n` bits from bit `lo` up, seen at bit `k` of the word. -/
theorem getLsbD_fieldAt {n : Nat} (lo : Nat) (v : BitVec n) (k : Nat) (hk : k < 16) :
    (fieldAt lo v).getLsbD k = (decide (lo ≤ k) && v.getLsbD (k - lo)) := by
  have hk' : k - lo < 16 := by omega
  simp only [fieldAt, BitVec.getLsbD_shiftLeft, BitVec.getLsbD_setWidth, hk, hk', decide_true, Bool.true_and]
  by_cases h : lo ≤ k
  · simp [h, Nat.not_lt.mpr h]
  · simp [h, Nat.lt_of_not_le h]

end Sys2Proof.Machine
end

