-- ==== Sys2Proof/Laws/PerInstr.lean ====
section
/-! SUPPORT. Statements per instruction, as syntax: one lemma per constructor. -/

namespace Sys2Proof.Laws.OpcodeBits

/-- Bits 15:12 of the word that encodes an instruction are its opcode in the opcode map (30_encoding.md R90, R100). -/
def Statement (i : Instr) : Prop := Machine.opcodeOf (encode i) = Machine.opcode i

/-- A word whose bits 15 to 12 are the bits of `o` has opcode `o`. -/
theorem opcodeOf_eq {w : Word} {o : BitVec 4}
    (h : w.getLsbD 12 = o.getLsbD 0 ∧ w.getLsbD 13 = o.getLsbD 1 ∧ w.getLsbD 14 = o.getLsbD 2 ∧
      w.getLsbD 15 = o.getLsbD 3) : Machine.opcodeOf w = o := by
  obtain ⟨h0, h1, h2, h3⟩ := h
  ext k hk
  simp only [Machine.opcodeOf, BitVec.getElem_extractLsb']
  rw [← BitVec.getLsbD_eq_getElem hk]
  match k, hk with
  | 0, _ => exact h0
  | 1, _ => exact h1
  | 2, _ => exact h2
  | 3, _ => exact h3

theorem br (n z p : Bool) (off : BitVec 9) : Statement (.br n z p off) :=
  opcodeOf_eq (by simp [encode, Machine.opcode, fieldAt])

theorem addReg (dr sr1 sr2 : RegIx) : Statement (.addReg dr sr1 sr2) :=
  opcodeOf_eq (by simp [encode, Machine.opcode, fieldAt, regField])

theorem addImm (dr sr1 : RegIx) (imm : BitVec 5) : Statement (.addImm dr sr1 imm) :=
  opcodeOf_eq (by simp [encode, Machine.opcode, fieldAt, regField])

theorem ld (dr : RegIx) (off : BitVec 9) : Statement (.ld dr off) :=
  opcodeOf_eq (by simp [encode, Machine.opcode, fieldAt, regField])

theorem st (sr : RegIx) (off : BitVec 9) : Statement (.st sr off) :=
  opcodeOf_eq (by simp [encode, Machine.opcode, fieldAt, regField])

theorem jsr (off : BitVec 11) : Statement (.jsr off) :=
  opcodeOf_eq (by simp [encode, Machine.opcode, fieldAt])

theorem jsrr (base : RegIx) : Statement (.jsrr base) :=
  opcodeOf_eq (by simp [encode, Machine.opcode, fieldAt, regField])

theorem andReg (dr sr1 sr2 : RegIx) : Statement (.andReg dr sr1 sr2) :=
  opcodeOf_eq (by simp [encode, Machine.opcode, fieldAt, regField])

theorem andImm (dr sr1 : RegIx) (imm : BitVec 5) : Statement (.andImm dr sr1 imm) :=
  opcodeOf_eq (by simp [encode, Machine.opcode, fieldAt, regField])

theorem ldr (dr base : RegIx) (off : BitVec 6) : Statement (.ldr dr base off) :=
  opcodeOf_eq (by simp [encode, Machine.opcode, fieldAt, regField])

theorem str (sr base : RegIx) (off : BitVec 6) : Statement (.str sr base off) :=
  opcodeOf_eq (by simp [encode, Machine.opcode, fieldAt, regField])

theorem rti : Statement .rti :=
  opcodeOf_eq (by simp [encode, Machine.opcode])

theorem not (dr sr : RegIx) : Statement (.not dr sr) :=
  opcodeOf_eq (by simp [encode, Machine.opcode, fieldAt, regField])

theorem ldi (dr : RegIx) (off : BitVec 9) : Statement (.ldi dr off) :=
  opcodeOf_eq (by simp [encode, Machine.opcode, fieldAt, regField])

theorem sti (sr : RegIx) (off : BitVec 9) : Statement (.sti sr off) :=
  opcodeOf_eq (by simp [encode, Machine.opcode, fieldAt, regField])

theorem jmp (base : RegIx) : Statement (.jmp base) :=
  opcodeOf_eq (by simp [encode, Machine.opcode, fieldAt, regField])

theorem ret : Statement .ret :=
  opcodeOf_eq (by simp [encode, Machine.opcode])

theorem reserved : Statement .reserved :=
  opcodeOf_eq (by simp [encode, Machine.opcode])

theorem lea (dr : RegIx) (off : BitVec 9) : Statement (.lea dr off) :=
  opcodeOf_eq (by simp [encode, Machine.opcode, fieldAt, regField])

theorem trap (vect : BitVec 8) : Statement (.trap vect) :=
  opcodeOf_eq (by simp [encode, Machine.opcode, fieldAt])

end Sys2Proof.Laws.OpcodeBits
end

