-- ==== Sys2Proof/Tests/Slice0.lean ====
section
/-! SUPPORT. Tests on single steps, with the expected results of 95_test_vectors.md (each test names its vector), and for
every statement with hypotheses a state and operands that meet them. -/

namespace Sys2Proof.Tests

open Sys2Proof.Machine

/-! ## Decoding: words written out from the formats of 30_encoding.md R92 -/

theorem decode_br : decode 0b0000_101_100000000#16 = .br true false true (-256) := by decide
theorem decode_addReg : decode 0b0001_010_000_0_00_001#16 = .addReg 2 0 1 := by decide
theorem decode_addImm : decode 0b0001_000_000_1_00001#16 = .addImm 0 0 1 := by decide
theorem decode_ld : decode 0b0010_000_000000001#16 = .ld 0 1 := by decide
theorem decode_st : decode 0b0011_000_000001010#16 = .st 0 10 := by decide
theorem decode_jsr : decode 0b0100_1_10000000000#16 = .jsr (-1024) := by decide
theorem decode_jsrr : decode 0b0100_0_00_010_000000#16 = .jsrr 2 := by decide
theorem decode_andReg : decode 0b0101_010_001_0_00_010#16 = .andReg 2 1 2 := by decide
theorem decode_andImm : decode 0b0101_001_001_1_11111#16 = .andImm 1 1 (-1) := by decide
theorem decode_ldr : decode 0b0110_001_000_100000#16 = .ldr 1 0 (-32) := by decide
theorem decode_str : decode 0b0111_111_000_111111#16 = .str 7 0 (-1) := by decide
theorem decode_rti : decode 0b1000_000000000000#16 = .rti := by decide
theorem decode_not : decode 0b1001_001_000_111111#16 = .not 1 0 := by decide
theorem decode_ldi : decode 0b1010_000_000000001#16 = .ldi 0 1 := by decide
theorem decode_sti : decode 0b1011_000_000000001#16 = .sti 0 1 := by decide
theorem decode_jmp : decode 0b1100_000_010_000000#16 = .jmp 2 := by decide
theorem decode_ret : decode 0b1100_000_111_000000#16 = .ret := by decide
theorem decode_reserved : decode 0b1101_111111111111#16 = .reserved := by decide
theorem decode_lea : decode 0b1110_000_111111111#16 = .lea 0 (-1) := by decide
theorem decode_trap : decode 0b1111_0000_00100101#16 = .trap 0x25 := by decide

/-- DEC-6, DEC-7, DEC-8, DEC-9, DEC-11, DEC-26: words with ignored bits set. -/
theorem decode_ignores :
    decode 0x1019#16 = .addReg 0 0 1 ∧ decode 0xCFFF#16 = .ret ∧ decode 0xFF21#16 = .trap 0x21 ∧
      decode 0x8FFF#16 = .rti ∧ decode 0x9200#16 = .not 1 0 ∧ decode 0x47FF#16 = .jsrr 7 := by decide

/-- DEC-1: the all-zero word (30_encoding.md R104). -/
theorem decode_zero : decode 0x0000#16 = .br false false false 0 := by decide

/-- The assembler encodings of 95_test_vectors.md. -/
theorem encode_words :
    encode (.addReg 1 2 3) = 0x1283#16 ∧ encode (.addImm 7 7 (-16)) = 0x1FF0#16 ∧
      encode (.andImm 5 6 (-1)) = 0x5BBF#16 ∧ encode (.not 3 4) = 0x973F#16 ∧ encode (.ldr 1 2 (-32)) = 0x62A0#16 ∧
      encode (.str 3 4 31) = 0x771F#16 ∧ encode (.jmp 3) = 0xC0C0#16 ∧ encode (.jsrr 5) = 0x4140#16 ∧
      encode (.br true true false 3) = 0x0C03#16 ∧ encode (.jsr 3) = 0x4803#16 := by decide

/-! ## Well-formedness -/

/-- JMP with BaseR = R7 is RET (42_control.md R171): the one check refuses it, and accepts any other base. -/
theorem wellFormed_jmp : Instr.wellFormed (.jmp 7) = false ∧ Instr.wellFormed (.jmp 6) = true := by decide

/-! ## Single steps -/

/-- The reset state with other registers (R0 to R7), pc and PSR. -/
def start (x : Vector Word 8) (pc psr : Word) : State := { State.reset with x := x, pc := pc, psr := psr }

/-- R0 = `a`, R1 = `b`, R2 = `c`, and zero elsewhere, at x3000 with CC = Z. -/
def regs (a b c : Word) : State := start #v[a, b, c, 0, 0, 0, 0, 0] 0x3000 0x0002

/-- `s` with `v` in the memory cell at `a`. -/
def holding (a v : Word) (s : State) : State := { s with mem := s.mem.write a.toNat v }

/-- The state after one step that runs the word `w` at the pc. -/
def after (w : Nat) (s : State) : Option State := nextState (step (s.withFetchWord 16 w))

/-- The fault of one step that runs the word `w` at the pc. -/
def faultAfter (w : Nat) (s : State) : Option Fault := faultOf (step (s.withFetchWord 16 w))

/-- ADD-2. -/
theorem test_addReg_signed_overflow_wraps :
    (after 0x1401 (regs 0x7FFF 1 0)).map (fun t => (t.reg 2, t.psr, t.pc)) = some (0x8000, 0x0004, 0x3001) := by decide

/-- ADD-7: DR, SR1 and SR2 the same register. -/
theorem test_addReg_same_register :
    (after 0x1241 (regs 0 0x4000 0)).map (fun t => (t.reg 1, t.psr)) = some (0x8000, 0x0004) := by decide

/-- ADD-6. -/
theorem test_addImm_negative :
    (after 0x1270 (regs 0 0 0)).map (fun t => (t.reg 1, t.psr)) = some (0xFFF0, 0x0004) := by decide

/-- AND-3. -/
theorem test_andReg : (after 0x5442 (regs 0 0x00FF 0xF0F0)).map (fun t => (t.reg 2, t.psr)) = some (0x00F0, 0x0001) := by
  decide

/-- AND-5: the immediate is sign-extended. -/
theorem test_andImm : (after 0x5030 (regs 0x1234 0 0)).map (fun t => (t.reg 0, t.psr)) = some (0x1230, 0x0001) := by
  decide

/-- NOT-4. -/
theorem test_not : (after 0x903F (regs 0x8000 0 0)).map (fun t => (t.reg 0, t.psr)) = some (0x7FFF, 0x0001) := by decide

/-- LD-2: the address wraps. -/
theorem test_ld_wraps :
    (after 0x20FF (holding 0x00F0 0x0042 (start (Vector.replicate 8 0) 0xFFF0 2))).map (fun t => (t.reg 0, t.psr, t.pc)) =
      some (0x0042, 0x0001, 0xFFF1) := by decide

/-- LDI-1: one byte is consumed. -/
theorem test_ldi_keyboard :
    (after 0xA001 { start (Vector.replicate 8 0) 0x0400 2 with input := [0x41] }).map
      (fun t => (t.reg 0, t.psr, t.kbdr, t.input, t.pc)) = some (0x0041, 0x0001, 0x0041, [], 0x0401) := by decide

/-- LDI-2: no next state while there is no input. -/
theorem test_ldi_blocks : faultAfter 0xA001 (start (Vector.replicate 8 0) 0x0400 2) = some .keyboardBlocked := by decide

/-- LDR-2: DR = BaseR. -/
theorem test_ldr_same_register :
    (after 0x6240 (holding 0x4000 0x1234 (regs 0 0x4000 0))).map (fun t => (t.reg 1, t.psr)) =
      some (0x1234, 0x0001) := by decide

/-- LDR-5: a device register in the way of RAM. -/
theorem test_ldr_kbsr : (after 0x601F (regs 0xFDE1 0 0)).map (fun t => (t.reg 0, t.psr)) = some (0x0000, 0x0002) := by
  decide

/-- LEA-4: no access at a device address. -/
theorem test_lea_no_access :
    (after 0xE005 (start (Vector.replicate 8 0) 0xFDFA 2)).map (fun t => (t.reg 0, t.psr)) =
      some (0xFE00, 0x0004) := by decide

/-- ST-1. -/
theorem test_st :
    (after 0x300A (start #v[0x3100, 0, 0, 0, 0, 0, 0, 0] 0x0420 2)).map (fun t => (t.mem.read 0x042B, t.psr)) =
      some (0x3100, 0x0002) := by decide

/-- STI-1: the display takes the low byte, and RAM at the device address stays. -/
theorem test_sti_display :
    (after 0xB001 (start #v[0x0148, 0, 0, 0, 0, 0, 0, 0] 0x0410 2)).map
      (fun t => (t.ddr, t.output, t.mem.read 0xFE06)) = some (0x0148, [0x48], 0x0000) := by decide

/-- STI-2: the run bit is cleared, and the instruction completes. -/
theorem test_sti_clears_run_bit :
    (after 0xB001 (holding 0x3002 0xFFFE (regs 0 0 0))).map (fun t => (t.mcr, t.status, t.pc)) =
      some (0x0000, .running, 0x3001) := by decide

/-- STR-2: the address wraps. -/
theorem test_str_wraps :
    (after 0x7E3F (start #v[0, 0, 0, 0, 0, 0, 0, 0x1111] 0x3000 2)).map (fun t => t.mem.read 0xFFFF) =
      some 0x1111 := by decide

/-- STR-3: a write of KBDR takes no input and prints nothing. -/
theorem test_str_kbdr :
    (after 0x7040 { regs 0x0077 0xFE02 0 with input := [0x51] }).map (fun t => (t.kbdr, t.input, t.output)) =
      some (0x0077, [0x51], []) := by decide

/-- BR-7: the target wraps. -/
theorem test_br_wraps :
    (after 0x0E01 (start (Vector.replicate 8 0) 0xFFFF 2)).map (fun t => t.pc) = some 0x0001 := by decide

/-- BR-8: no flag set, no branch. -/
theorem test_br_no_flag :
    (after 0x0FFF (start (Vector.replicate 8 0) 0x3000 0)).map (fun t => t.pc) = some 0x3001 := by decide

/-- JMP-2. -/
theorem test_jmp : (after 0xC080 (regs 0 0 0xFFFF)).map (fun t => t.pc) = some 0xFFFF := by decide

/-- JMP-3: a RET word with ignored bits set. -/
theorem test_ret :
    (after 0xCFFF (start #v[0, 0, 0, 0, 0, 0, 0, 0x1234] 0x3000 2)).map (fun t => (t.pc, t.reg 7)) =
      some (0x1234, 0x1234) := by decide

/-- JSR-3: the target wraps. -/
theorem test_jsr :
    (after 0x4C00 (start (Vector.replicate 8 0) 0x0100 2)).map (fun t => (t.reg 7, t.pc)) = some (0x0101, 0xFD01) := by
  decide

/-- JSRR-1. -/
theorem test_jsrr : (after 0x4080 (regs 0 0 0x5000)).map (fun t => (t.reg 7, t.pc)) = some (0x3001, 0x5000) := by decide

/-- JSRR-2: R7 is written before the base is read. -/
theorem test_jsrr_r7 :
    (after 0x41C0 (start #v[0, 0, 0, 0, 0, 0, 0, 0x5000] 0x3000 2)).map (fun t => (t.reg 7, t.pc)) =
      some (0x3001, 0x3001) := by decide

/-- TRAP-4: HALT's entry, and no change of mode. -/
theorem test_trap :
    (after 0xF025 (start (Vector.replicate 8 0) 0x3000 0x8001)).map (fun t => (t.reg 7, t.pc, t.psr)) =
      some (0x3001, 0x0470, 0x8001) := by decide

/-- RTI-3: R6 wraps, and the popped flags are kept as popped. -/
theorem test_rti_wraps :
    (after 0x8000 (holding 0xFFFF 0x1234 (holding 0x0000 0x0007
      (start #v[0, 0, 0, 0, 0, 0, 0xFFFF, 0] 0x3000 2)))).map (fun t => (t.pc, t.psr, t.reg 6)) =
      some (0x1234, 0x0007, 0x0001) := by decide

/-- RTI-2: a privilege violation changes nothing but the run state. -/
theorem test_rti_user :
    (after 0x8000 (start #v[0, 0, 0, 0, 0, 0, 0x2FFE, 0] 0x3000 0x8004)).map
      (fun t => (t.status, t.pc, t.reg 6, t.psr)) =
      some (.error .privilegeViolation, 0x3001, 0x2FFE, 0x8004) := by decide

/-- RSV-2. -/
theorem test_reserved :
    (after 0xDFFF (start (Vector.replicate 8 0) 0x3000 0x8001)).map (fun t => (t.status, t.pc, t.psr)) =
      some (.error .illegalOpcode, 0x3001, 0x8001) := by decide

/-- IO-9: a fetch at KBDR takes no input; the word x1021 there is ADD R0,R0,#1. -/
theorem test_fetch_kbdr :
    (nextState (step { start (Vector.replicate 8 0) 0xFE02 2 with kbdr := 0x1021, input := [0x61] })).map
      (fun t => (t.reg 0, t.input, t.pc)) = some (0x0001, [0x61], 0xFE03) := by decide

/-- 70_reset_and_hazards.md R236: the halt check, and a run that is over. -/
theorem test_halt_check :
    (nextState (step { State.reset with mcr := 0x7FFF })).map (fun t => (t.status, t.pc)) = some (.halted, 0x3000) ∧
      faultOf (step { State.reset with status := .halted }) = some .runOver := by decide

/-! ## Boot, loader and assembler -/

/-- The loader table of 95_test_vectors.md. -/
theorem test_loader :
    parseObject [0x30, 0x00, 0x10, 0x21, 0x0F, 0xFE] = .ok (0x3000, [0x1021, 0x0FFE]) ∧
      parseObject [0xFF, 0xFF, 0x12, 0x34] = .ok (0xFFFF, [0x1234]) ∧
      parseObject [0xFF, 0xFF, 0x12, 0x34, 0x56, 0x78] = .error .outsideAddressSpace ∧
      parseObject [0x30, 0x00, 0x10] = .error .oddByteCount ∧ parseObject [] = .error .noOrigin :=
  ⟨rfl, rfl, rfl, rfl, rfl⟩

/-- The trap vector table of the reset state (70_reset_and_hazards.md R226). -/
theorem test_reset_vectors :
    State.reset.mem.read 0x0020 = 0x0400 ∧ State.reset.mem.read 0x0025 = 0x0470 ∧ State.reset.mem.read 0x0026 = 0 := by
  decide

/-- The object words of an assembled text, without its error. -/
def wordsOf (text : String) : Option (List Word) :=
  match assemble { maxLexeme := 64 } (bytesOf text) with
  | .ok ws => some ws
  | .error _ => none

/-- The error of a text that does not assemble. -/
def errorOf (text : String) : Option AsmErrorKind :=
  match assemble { maxLexeme := 64 } (bytesOf text) with
  | .ok _ => none
  | .error e => some e.kind

/-- E1. -/
theorem test_assemble_loop :
    wordsOf ".ORIG x3000 LOOP ADD R0,R0,#1 BRnzp LOOP .END" = some [0x3000, 0x1021, 0x0FFE] := by decide +kernel

/-- The boundary rows of the assembler table: hexadecimal is unsigned, and imm5 is -16..15. -/
theorem test_assemble_range :
    errorOf ".ORIG x3000 ADD R0,R0,x10 .END" = some .encodingRangeError ∧
      wordsOf ".ORIG x3000 ADD R7, R7, #-16 .END" = some [0x3000, 0x1FF0] := by decide +kernel

/-- A redefinition is a SymbolError naming the label, and a missing comma a SyntaxError. -/
theorem test_assemble_errors :
    errorOf ".ORIG x3000 L ADD R0,R0,#1 L ADD R0,R0,#1 .END" = some (.symbolError (bytesOf "L")) ∧
      errorOf ".ORIG x3000 ADD R0 R0, #1 .END" = some .syntaxError := by decide +kernel

/-! ## Witnesses: for each statement with hypotheses, a state and operands that meet them -/

/-- A read of RAM, at an address that is no device's. -/
theorem readsWord_ram {a : Word} {s : State}
    (h : a ∉ ([0xFE00#16, 0xFE02#16, 0xFE04#16, 0xFE06#16, 0xFFFE#16] : List Word)) :
    ReadsWord a (s.mem.read a.toNat) s s := by
  simp only [List.mem_cons, not_or] at h
  exact ⟨fun e => absurd e h.2.1, fun e => absurd e h.1, fun e => absurd e h.2.2.1, fun e => absurd e h.2.2.2.1,
    fun e => absurd e h.2.2.2.2.1, fun _ => ⟨rfl, rfl⟩⟩

/-- The reset state about to run the word `w`. -/
def about (w : Nat) : State := State.reset.withFetchWord 16 w

theorem witness_EncodedInstructionDecodesBack : Instr.wellFormed (.jmp 6) = true := by decide

theorem witness_DecodedInstructionIsWellFormed : opcodeOf 0xCFFF#16 = 0b1100#4 ∧ opcodeOf 0xC000#16 = 0b1100#4 := by decide

theorem witness_BranchWithEmptyMaskIsANoOp : (0x01FF#16 : Word).extractLsb' 9 7 = 0#7 := by decide

theorem witness_AddWritesTheSum : opcodeOf 0x1FFF#16 = 0b0001#4 ∧ opcodeOf 0x1000#16 = 0b0001#4 := by decide

theorem witness_AndWritesTheConjunction : opcodeOf 0x5FFF#16 = 0b0101#4 ∧ opcodeOf 0x5000#16 = 0b0101#4 := by decide

theorem witness_NotWritesTheComplement : opcodeOf 0x9000#16 = 0b1001#4 ∧ 0x923F#16 = encode (.not 1 0) := by decide

theorem witness_AddIsModularAddition :
    exec (.addReg 2 0 1) (regs 0xFFFF 1 0) = .next (writeResult 2 0 (regs 0xFFFF 1 0)) ∧
      exec (.addImm 2 0 1) (regs 0x7FFF 0 0) = .next (writeResult 2 0x8000 (regs 0x7FFF 0 0)) := ⟨rfl, rfl⟩

/-- A PC-relative address of RAM, and KBDR with and without input. -/
theorem witness_LdLoadsTheWord :
    opcodeOf 0x2FFF#16 = 0b0010#4 ∧
      Readable (State.reset.pc + (1#9).signExtend 16) State.reset ∧
      Readable ((0xFE01#16 : Word) + (1#9).signExtend 16) { State.reset with pc := 0xFE01#16, input := [0x41#8] } ∧
      ¬ Readable ((0xFE01#16 : Word) + (1#9).signExtend 16) { State.reset with pc := 0xFE01#16 } :=
  ⟨by decide, fun h => absurd h (by decide), fun _ => by decide, fun h => absurd rfl (h (by decide))⟩

/-- A pointer in RAM, at x0402 of the image, that points to KBDR: read with input, blocked without. -/
theorem witness_LdiLoadsThroughThePointer :
    opcodeOf 0xAFFF#16 = 0b1010#4 ∧
      ReadsWord ((0x0401#16 : Word) + (1#9).signExtend 16) 0xFE02#16 { State.reset with pc := 0x0401#16 }
        { State.reset with pc := 0x0401#16 } ∧
      ¬ Readable 0xFE02#16 { State.reset with pc := 0x0401#16 } ∧
      Readable 0xFE02#16 { State.reset with pc := 0x0401#16, input := [0x41#8] } ∧
      ¬ Readable ((0xFE01#16 : Word) + (1#9).signExtend 16) { State.reset with pc := 0xFE01#16 } :=
  ⟨by decide, readsWord_ram (a := 0x0402#16) (by decide), fun h => absurd rfl (h rfl), fun _ => by decide,
    fun h => absurd rfl (h (by decide))⟩

theorem witness_LdrLoadsFromTheBase :
    opcodeOf 0x6FFF#16 = 0b0110#4 ∧
      Readable ((regs 0xFE03 0 0).reg 0 + (0#6).signExtend 16) (regs 0xFE03 0 0) ∧
      ¬ Readable ((regs 0xFE03 0 0).reg 0 + (-1#6).signExtend 16) (regs 0xFE03 0 0) :=
  ⟨by decide, fun h => absurd h (by decide), fun h => absurd rfl (h (by decide))⟩

theorem witness_LeaLoadsTheAddress : opcodeOf 0xEFFF#16 = 0b1110#4 := by decide

theorem witness_StStoresTheRegister : opcodeOf 0x3FFF#16 = 0b0011#4 := by decide

theorem witness_StiStoresThroughThePointer :
    opcodeOf 0xBFFF#16 = 0b1011#4 ∧ Readable (State.reset.pc + (1#9).signExtend 16) State.reset ∧
      ¬ Readable ((0xFE01#16 : Word) + (1#9).signExtend 16) { State.reset with pc := 0xFE01#16 } :=
  ⟨by decide, fun h => absurd h (by decide), fun h => absurd rfl (h (by decide))⟩

theorem witness_StrStoresAtTheBase : opcodeOf 0x7FFF#16 = 0b0111#4 := by decide

/-- With CC = Z, BRz is taken and BRnp is not. -/
theorem witness_BrJumpsOnASelectedFlag :
    opcodeOf 0x0FFF#16 = 0b0000#4 ∧ ((true = true ∧ State.reset.psr.getLsbD 1 = true) ∧
      ¬((true = true ∧ State.reset.psr.getLsbD 2 = true) ∨ (false = true ∧ State.reset.psr.getLsbD 1 = true) ∨
        (true = true ∧ State.reset.psr.getLsbD 0 = true))) := by decide

theorem witness_JmpAndRetJumpToTheRegister : opcodeOf 0xCFFF#16 = 0b1100#4 ∧ opcodeOf 0xC000#16 = 0b1100#4 := by decide

theorem witness_JsrCallsRelativeToThePc : opcodeOf 0x4FFF#16 = 0b0100#4 ∧ (0x4FFF#16 : Word).getLsbD 11 = true := by
  decide

theorem witness_JsrrCallsTheRegister : opcodeOf 0x47FF#16 = 0b0100#4 ∧ (0x47FF#16 : Word).getLsbD 11 = false := by
  decide

theorem witness_TrapGoesThroughTheVectorTable : opcodeOf 0xFFFF#16 = 0b1111#4 := by decide

/-- Supervisor mode with a stack in RAM; user mode; and the two stacks whose first or second pop is at KBDR. -/
theorem witness_RtiPopsPcAndPsr :
    opcodeOf 0x8FFF#16 = 0b1000#4 ∧ (start (Vector.replicate 8 0) 0x3000 0x8004).psr.getLsbD 15 = true ∧
      (State.reset.psr.getLsbD 15 = false ∧ Readable (State.reset.reg 6) State.reset ∧
        Readable (State.reset.reg 6 + 1#16) State.reset) ∧
      ¬ Readable ((start (Vector.replicate 8 0xFE02) 0x3000 2).reg 6) (start (Vector.replicate 8 0xFE02) 0x3000 2) ∧
      ¬ Readable ((start (Vector.replicate 8 0xFE01) 0x3000 2).reg 6 + 1#16)
        (start (Vector.replicate 8 0xFE01) 0x3000 2) :=
  ⟨by decide, by decide, ⟨by decide, fun h => absurd h (by decide), fun h => absurd h (by decide)⟩,
    fun h => absurd rfl (h (by decide)), fun h => absurd rfl (h (by decide))⟩

theorem witness_DataReadGivesTheSelectedWord :
    Readable 0xFE01#16 State.reset ∧ ¬ Readable 0xFE02#16 State.reset :=
  ⟨fun h => absurd h (by decide), fun h => absurd rfl (h rfl)⟩

theorem witness_DataWriteReachesTheSelectedPlace :
    State.reset.status = .running ∧ (0x7FFF#16 : Word).getLsbD 15 = false := by decide

theorem witness_ready : Ready State.reset := ⟨rfl, by decide⟩

/-- At RAM, and at KBDR. -/
theorem witness_FetchHasNoSideEffect :
    (Ready State.reset ∧ State.reset.pc ∉ ([0xFE00#16, 0xFE02#16, 0xFE04#16, 0xFE06#16, 0xFFFE#16] : List Word)) ∧
      (Ready { State.reset with pc := 0xFE02#16 } ∧ ({ State.reset with pc := 0xFE02#16 } : State).pc = 0xFE02#16) :=
  ⟨⟨witness_ready, by decide⟩, witness_ready, rfl⟩

/-- The addresses beside two devices are RAM. -/
theorem witness_WrittenWordIsFetched :
    0xFE01#16 ∉ ([0xFE00#16, 0xFE02#16, 0xFE04#16, 0xFE06#16, 0xFFFE#16] : List Word) ∧
      0xFFFF#16 ∉ ([0xFE00#16, 0xFE02#16, 0xFE04#16, 0xFE06#16, 0xFFFE#16] : List Word) ∧
      (0xFE00#16 : Word) ≠ 0xFE01#16 ∧ Ready State.reset ∧
      State.reset.pc ∉ ([0xFE00#16, 0xFE02#16, 0xFE04#16, 0xFE06#16, 0xFFFE#16] : List Word) :=
  ⟨by decide, by decide, by decide, witness_ready, by decide⟩

/-- At the last device address, and at KBDR with and without input. -/
theorem witness_DeviceRegistersShadowRam :
    (Readable 0xFE02#16 { State.reset with input := [0x41#8] } ∧ ¬ Readable 0xFE02#16 State.reset) ∧
      0xFFFE#16 ∈ ([0xFE00#16, 0xFE02#16, 0xFE04#16, 0xFE06#16, 0xFFFE#16] : List Word) ∧
      memRead 0xFFFE#16 State.reset = .ok (0x8000#16, State.reset) :=
  ⟨⟨fun _ => by decide, fun h => absurd rfl (h rfl)⟩, by decide, rfl⟩

theorem witness_StepRunsTheDecodedInstruction :
    Ready State.reset ∧ ({ State.reset with mcr := 0x7FFF#16 } : State).mcr.getLsbD 15 = false ∧
      ({ State.reset with status := .halted } : State).status ≠ .running :=
  ⟨witness_ready, by decide, by decide⟩

/-- A run that is over, a clear run bit, the reserved opcode, RTI in user mode, and a step that goes on. -/
theorem witness_RunStateChangesOnlySo :
    ({ State.reset with status := .halted } : State).status ≠ .running ∧
      (({ State.reset with mcr := 0x7FFF#16 } : State).status = .running ∧
        ({ State.reset with mcr := 0x7FFF#16 } : State).mcr.getLsbD 15 = false) ∧
      (Ready (about 0xDFFF) ∧ decode (fetch (about 0xDFFF).pc (about 0xDFFF)) = .reserved) ∧
      (Ready { about 0x8000 with psr := 0x8002#16 } ∧
        decode (fetch ({ about 0x8000 with psr := 0x8002#16 } : State).pc { about 0x8000 with psr := 0x8002#16 }) = .rti ∧
        ({ about 0x8000 with psr := 0x8002#16 } : State).psr.getLsbD 15 = true) ∧
      step State.reset = .next { State.reset with pc := 0x3001#16 } :=
  ⟨by decide, ⟨rfl, by decide⟩, ⟨⟨rfl, by decide⟩, by decide⟩, ⟨⟨rfl, by decide⟩, by decide, by decide⟩, rfl⟩

theorem witness_RuntimeErrorWritesOnlyTheRunState :
    (Ready (about 0xD000) ∧ decode (fetch (about 0xD000).pc (about 0xD000)) = .reserved) ∧
      (Ready { about 0x8000 with psr := 0x8002#16 } ∧
        decode (fetch ({ about 0x8000 with psr := 0x8002#16 } : State).pc { about 0x8000 with psr := 0x8002#16 }) = .rti ∧
        ({ about 0x8000 with psr := 0x8002#16 } : State).psr.getLsbD 15 = true) ∧
      (nextState (step (about 0xD000))).map (fun t => t.status) = some (.error .illegalOpcode) :=
  ⟨⟨⟨rfl, by decide⟩, by decide⟩, ⟨⟨rfl, by decide⟩, by decide, by decide⟩, by decide⟩

theorem witness_PcMovesToTheNextWord :
    Ready { about 0x1021 with pc := 0xFFFF#16, mem := [(0xFFFF, 0x1021#16)] } ∧
      transfersControl (decode (fetch 0xFFFF#16 { about 0x1021 with pc := 0xFFFF#16, mem := [(0xFFFF, 0x1021#16)] })) =
        false ∧
      (nextState (step { about 0x1021 with pc := 0xFFFF#16, mem := [(0xFFFF, 0x1021#16)] })).isSome = true :=
  ⟨⟨rfl, by decide⟩, by decide, by decide⟩

theorem witness_OnlyTheTablesRegistersAreWritten :
    (nextState (exec (.addReg 2 0 1) (regs 1 2 3))).isSome = true := by decide

/-- The registers that ADD R2,R0,R1 reads agree, and R3 differs. -/
theorem witness_OnlyTheTablesRegistersAreRead :
    (∀ r ∈ regsRead (.addReg 2 0 1), (#v[1#16, 2, 3, 9, 0, 0, 0, 0]).get r = (regs 1 2 3).reg r) ∧
      (nextState (exec (.addReg 2 0 1) (regs 1 2 3))).isSome = true := by decide

theorem witness_OnlyBranchAndReturnReadThePsr :
    (∀ n z p off, Instr.ret ≠ .br n z p off) ∧ Instr.ret ≠ .rti ∧ (nextState (exec .ret State.reset)).isSome = true :=
  ⟨fun _ _ _ _ h => (by cases h), by decide, by decide⟩

theorem witness_StorageStaysCanonical : Inv State.reset ∧ (nextState (step State.reset)).isSome = true :=
  ⟨Memory.nil_wf, by decide⟩

theorem witness_OneHotFlagsAreKept :
    OneHot State.reset.cc ∧ decode (fetch State.reset.pc State.reset) ≠ .rti ∧
      (nextState (step State.reset)).isSome = true := ⟨.inr (.inl (by decide)), by decide, by decide⟩

/-- User mode at a word that completes; and an RTI in supervisor mode that pops a word with bit 15 = 1 (RTI-1). -/
def aboutToReturn : State :=
  holding 0x2FFE 0x3000 (holding 0x2FFF 0x8001 { about 0x8000 with x := Vector.replicate 8 0x2FFE })

/-- LEA; RTI in supervisor mode, which pops x8001; RTI in user mode; and RET. -/
theorem witness_FlagsChangeAsTheTableSays :
    (setccReg (.lea 3 1) = some 3 ∧ (nextState (exec (.lea 3 1) State.reset)).isSome = true) ∧
      (aboutToReturn.psr.getLsbD 15 = false ∧ ReadsWord (aboutToReturn.reg 6) 0x3000#16 aboutToReturn aboutToReturn ∧
        ReadsWord (aboutToReturn.reg 6 + 1#16) 0x8001#16 aboutToReturn aboutToReturn ∧
        (nextState (exec .rti aboutToReturn)).isSome = true) ∧
      (({ regs 0 0 0 with psr := 0x8001 } : State).psr.getLsbD 15 = true ∧
        (nextState (exec .rti { regs 0 0 0 with psr := 0x8001 })).isSome = true) ∧
      (setccReg .ret = none ∧ Instr.ret ≠ .rti ∧ (nextState (exec .ret State.reset)).isSome = true) :=
  ⟨by decide, ⟨by decide, readsWord_ram (a := 0x2FFE#16) (by decide), readsWord_ram (a := 0x2FFF#16) (by decide),
    by decide⟩, by decide, by decide⟩

theorem witness_UserModeIsNeverLeft :
    ((start (Vector.replicate 8 0) 0x3000 0x8001).psr.getLsbD 15 = true ∧
      (nextState (step (start (Vector.replicate 8 0) 0x3000 0x8001))).isSome = true) ∧
      (Ready aboutToReturn ∧ decode (fetch aboutToReturn.pc aboutToReturn) = .rti ∧
        aboutToReturn.psr.getLsbD 15 = false ∧
        ReadsWord (aboutToReturn.reg 6) (aboutToReturn.mem.read (aboutToReturn.reg 6).toNat) aboutToReturn aboutToReturn ∧
        ReadsWord (aboutToReturn.reg 6 + 1#16) (aboutToReturn.mem.read (aboutToReturn.reg 6 + 1#16).toNat) aboutToReturn
          aboutToReturn) ∧
      (nextState (step aboutToReturn)).map (fun t => t.psr.getLsbD 15) = some true :=
  ⟨⟨by decide, by decide⟩,
    ⟨⟨rfl, by decide⟩, by decide, by decide, readsWord_ram (by decide), readsWord_ram (by decide)⟩, by decide⟩

/-- A step that reads KBDR, one that writes DDR, and the blocked step of LDI-2. -/
theorem witness_StreamsMoveByOneByte :
    (after 0x6000 { regs 0xFE02 0 0 with input := [0x61, 0x62] }).map (fun t => (t.input, t.kbdr)) =
        some ([0x62], 0x0061) ∧
      (after 0x7040 (regs 0xFF0A 0xFE06 0)).map (fun t => (t.output, t.ddr)) = some ([0x0A], 0xFF0A) := by decide

theorem witness_SuppliedInputOnlyWaits : (nextState (step State.reset)).isSome = true := by decide

theorem witness_BlockedStepRunsOnceAByteArrives :
    step { State.reset with pc := 0x0400#16 } = .fault .keyboardBlocked := rfl

/-- The reference image, with a finite and with an infinite `INPUT`, an object file of one word, and an address that the
image leaves alone. -/
theorem witness_BootFollowsTheSequence :
    resetParams.HasHalt ∧ { resetParams with input := .endless fun n => BitVec.ofNat 8 n }.HasHalt ∧
      parseObject [] = .error .noOrigin ∧ parseObject [0x30#8, 0x00#8] = .ok (0x3000#16, []) ∧
      BootImage.reference.Pairwise (fun c d => c.1 ≠ d.1) ∧ (∀ c ∈ BootImage.reference, c.1 ≠ 0x3000#16) :=
  ⟨hasHalt_of_reference rfl, hasHalt_of_reference rfl, rfl, rfl, by decide +kernel, fun c hc => of_decide_eq_true
    (List.all_eq_true.mp
      (show (BootImage.reference.all fun c => decide (c.1 ≠ 0x3000#16)) = true by decide +kernel) c hc)⟩

/-- The core about to run GETC's LDI, with byte `n` at place `n` of an infinite `INPUT`. -/
def endlessRun : Run := ⟨{ State.reset with pc := 0x0400#16 }, .endless fun n => BitVec.ofNat 8 n⟩

/-- A core whose byte the host supplies; a core that has one; and a core whose `INPUT` is exhausted, at a word that reads
none. -/
theorem witness_RunsReadTheirInputInOrder :
    (endlessRun.core.status = .running ∧ endlessRun.core.input = [] ∧ endlessRun.byteAt 0 = some 0#8 ∧
      ∃ t, runStep endlessRun = .next t) ∧
      (({ State.reset with input := [0x41#8] } : State).input ≠ [] ∧
        ∃ t, runStep ⟨{ State.reset with input := [0x41#8] }, .finite []⟩ = .next t) ∧
      (Run.byteAt ⟨State.reset, .finite []⟩ 0 = none ∧ ∃ t, runStep ⟨State.reset, .finite []⟩ = .next t) :=
  ⟨⟨rfl, rfl, rfl, _, rfl⟩, ⟨by decide, _, rfl⟩, rfl, _, rfl⟩

/-- R229 refuses an image whose entry at x0025 is GETC's routine, which reads KBDR, and one without an entry. -/
theorem test_hasHalt_refuses :
    ¬ { resetParams with bootImage := (0x0025, 0x0400) :: BootImage.getcRoutine }.HasHalt ∧
      ¬ { resetParams with bootImage := [] }.HasHalt :=
  ⟨fun h => h.2.2 State.reset rfl rfl 1 rfl, fun h => by simpa using h.1⟩

/-- An object file of TRAP x25 alone, at x3000. -/
theorem witness_HaltTrapEndsTheRun :
    ∃ (h : resetParams.HasHalt) (r : Run), startRun resetParams h (bytesOfWords [0x3000#16, 0xF025#16]) = .ok r ∧
      fetch r.core.pc r.core = 0xF025#16 :=
  ⟨hasHalt_of_reference rfl, ⟨bootState resetParams 0x3000#16 [0xF025#16], .finite []⟩, rfl, by decide +kernel⟩

theorem witness_ResetIsTheBootOfAnOriginWord : resetParams.HasHalt := hasHalt_of_reference rfl

/-- The table entries x00 and xFF beside an object file at x3000, and one right after an object file that ends at x26. -/
theorem witness_TrapVectorTableAfterBoot :
    resetParams.bootImage = BootImage.reference ∧ (0xFF < 256 ∧ 0x25 < 0xFF ∧ 0xFF < (0x3000#16 : Word).toNat) ∧
      (0x26 < 256 ∧ 0x25 < 0x26 ∧ (0x25#16 : Word).toNat + [0#16].length ≤ 0x26) := ⟨rfl, by decide, by decide⟩

/-- The last word of the address space. -/
theorem witness_ObjectFileIsBigEndianWords : (0xFFFF#16 : Word).toNat + [0x1234#16].length ≤ 65536 := by decide

theorem witness_LoaderRejectsExactlyThese :
    ([0x30#8, 0x00, 0x10].length % 2 = 1) ∧
      ([0x12#8, 0x34, 0x56, 0x78].length % 2 = 0 ∧
        ((0xFF#8 : Byte) ++ (0xFF#8 : Byte)).toNat + [0x12#8, 0x34, 0x56, 0x78].length / 2 > 65536) ∧
      ([0x12#8, 0x34].length % 2 = 0 ∧
        ((0xFF#8 : Byte) ++ (0xFF#8 : Byte)).toNat + [0x12#8, 0x34].length / 2 ≤ 65536) ∧
      (resetParams.HasHalt ∧ parseObject [] = .error .noOrigin) :=
  ⟨by decide, by decide, by decide, hasHalt_of_reference rfl, rfl⟩

/-- The two ends of the PCoffset9 range, and the values beyond them (95_test_vectors.md E2). -/
theorem witness_FieldsAcceptExactlyTheirRange :
    signedField 9 (-256) = some (-256#9) ∧ signedField 9 255 = some 255#9 ∧ signedField 9 256 = none ∧
      signedField 9 (-257) = none ∧ vectorField 255 = some 0xFF#8 ∧ fillWord (-32768) = some 0x8000#16 := by decide

theorem witness_LabelOffsetsAreRelativeToTheNextWord :
    Symbols.entry [(bytesOf "L", some 0x3000), (bytesOf "M", none)] (bytesOf "L") = some (some 0x3000) ∧
      (-2#9 : BitVec 9).toInt = (0x3000 : Int) - (0x3001 + 1) ∧
      ¬(-256 ≤ (0x3101 : Int) - (0x3000 + 1) ∧ (0x3101 : Int) - (0x3000 + 1) ≤ 255) ∧
      ¬(-1024 ≤ (0x3401 : Int) - (0x3000 + 1) ∧ (0x3401 : Int) - (0x3000 + 1) ≤ 1023) ∧
      (-2#11 : BitVec 11).toInt = (0x3000 : Int) - (0x3001 + 1) ∧
      (Body.jsr (bytesOf "M")).label = some (bytesOf "M") ∧
      Symbols.entry [(bytesOf "L", some 0x3000), (bytesOf "M", none)] (bytesOf "M") = some none ∧
      Symbols.entry [(bytesOf "L", some 0x3000), (bytesOf "M", none)] (bytesOf "N") = none := by decide

theorem witness_AssembledFilesAreLoadable :
    assembleFile { maxLexeme := 64 } (bytesOf ".ORIG x3000 HALT .END") = .ok [0x30#8, 0x00#8, 0xF0#8, 0x25#8] := by rfl

end Sys2Proof.Tests
end

section
/-! What an instruction, a step and a run do with the keyboard's bytes (10_state.md R34, 20_memory.md R57, R60): at most one
byte is taken, the next one, and only a read with no byte left blocks. -/

namespace Sys2Proof

theorem Input.byteAt_zero (i : Input) : i.byteAt 0 = i.uncons.map Prod.fst := by
  cases i with
  | endless byte => rfl
  | finite bytes => cases bytes <;> rfl

end Sys2Proof

namespace Sys2Proof.Machine

/-! ## The accessor -/

/-- The word of a character is the address of a RAM word: a pointer that came from KBDR does not lead back to KBDR. -/
theorem select_zext16 (c : Byte) : select (zext16 c) = .ram := select_trapEntry c

theorem memWrite_of_ram {a : Word} (v : Word) (s : State) (h : select a = .ram) :
    memWrite a v s = { s with mem := s.mem.write a.toNat v } := by
  rw [memWrite, h]

theorem memWrite_input (a v : Word) (s : State) : (memWrite a v s).input = s.input := by
  obtain ⟨-, -, -, -, hinput⟩ := memWrite_keeps a v s
  exact hinput

@[simp] theorem bumpStack_reg_six (s : State) : s.bumpStack.reg 6 = s.reg 6 + 1#16 := State.reg_setReg_same s 6 _

/-! ## Instructions -/

/-- From `s` to `t` the input is unchanged, or its next byte has gone to KBDR. -/
def TakesAtMostOneByte (s t : State) : Prop :=
  t.input = s.input ∨ ∃ c, s.input = c :: t.input ∧ t.kbdr = c.setWidth 16

/-- An answer from `s` that takes at most one byte of the input, is a block only where there is none, and is no refusal. -/
def ReadsInOrder (s : State) : Result → Prop
  | .next t => TakesAtMostOneByte s t
  | .fault f => f = .keyboardBlocked ∧ s.input = []
  | .refused _ => False

/-- Reading and going on keeps the order when what follows does: after a read of KBDR it must leave the keyboard alone. -/
theorem readThen_readsInOrder {a : Word} {s : State} {k : Word → State → Result}
    (hother : select a ≠ .kbdr → ReadsInOrder s (k (fetch a s) s))
    (hkbdr : select a = .kbdr → ∀ (c : Byte) rest, ∃ t,
      k (zext16 c) { s with kbdr := zext16 c, input := rest } = .next t ∧ t.input = rest ∧ t.kbdr = zext16 c) :
    ReadsInOrder s (readThen a s k) := by
  rcases memRead_cases a s with ⟨ha, hm⟩ | ⟨ha, c, rest, hs, hm⟩ | ⟨-, hs, hm⟩
  · rw [readThen_ok k hm]
    exact hother ha
  · obtain ⟨t, ht, hinput, hkb⟩ := hkbdr ha c rest
    rw [readThen_ok k hm, ht]
    exact .inr ⟨c, by rw [hs, hinput], hkb⟩
  · rw [readThen, hm]
    exact ⟨rfl, hs⟩

theorem loadFrom_readsInOrder (a : Word) (dr : RegIx) (s : State) : ReadsInOrder s (loadFrom a dr s) :=
  readThen_readsInOrder (fun _ => .inl rfl) fun _ _ _ => ⟨_, rfl, rfl, rfl⟩

/-- The load after a pointer read from KBDR is from RAM. -/
theorem execLdi_readsInOrder (dr : RegIx) (off : BitVec 9) (s : State) : ReadsInOrder s (execLdi dr off s) :=
  readThen_readsInOrder (fun _ => loadFrom_readsInOrder _ dr s)
    fun _ c _ => ⟨_, readThen_ram _ (select_zext16 c), rfl, rfl⟩

/-- The store after a pointer read from KBDR goes to RAM. -/
theorem execSti_readsInOrder (sr : RegIx) (off : BitVec 9) (s : State) : ReadsInOrder s (execSti sr off s) :=
  readThen_readsInOrder (fun _ => .inl (memWrite_input _ _ s))
    fun _ c _ => ⟨_, congrArg _ (memWrite_of_ram _ _ (select_zext16 c)), rfl, rfl⟩

/-- The second pop after a first from KBDR is from the RAM word behind it. -/
theorem returnFromTrap_readsInOrder (s : State) : ReadsInOrder s (returnFromTrap s) := by
  refine readThen_readsInOrder (fun _ => ?_) fun hk c rest => ?_
  · exact readThen_readsInOrder (fun _ => .inl rfl) fun _ _ _ => ⟨_, rfl, rfl, rfl⟩
  · have hnext : select ((State.setPc { s with kbdr := zext16 c, input := rest } (zext16 c)).bumpStack.reg 6) = .ram := by
      rw [bumpStack_reg_six]
      change select (s.reg 6 + 1#16) = .ram
      rw [select_eq_kbdr.mp hk]
      rfl
    exact ⟨_, readThen_ram _ hnext, rfl, rfl⟩

theorem exec_readsInOrder (i : Instr) (s : State) : ReadsInOrder s (exec i s) := by
  cases i with
  | ld | ldr => exact loadFrom_readsInOrder _ _ s
  | ldi dr off => exact execLdi_readsInOrder dr off s
  | st | str => exact .inl (memWrite_input _ _ s)
  | sti sr off => exact execSti_readsInOrder sr off s
  | trap vect =>
    change ReadsInOrder s (enterTrap (trapEntry vect) s)
    rw [enterTrap_trapEntry]
    exact .inl rfl
  | rti =>
    change ReadsInOrder s (if s.userMode then raiseError .privilegeViolation s else returnFromTrap s)
    split
    · exact .inl rfl
    · exact returnFromTrap_readsInOrder s
  | br n z p off =>
    change (if branchTaken n z p s then s.setPc (pcRelative9 off s) else s).input = s.input ∨ _
    split <;> exact .inl rfl
  | addReg | addImm | andReg | andImm | not | lea | jmp | ret | jsr | jsrr | reserved => exact .inl rfl

/-! ## Steps -/

/-- The halt check of a running core whose run bit is clear. -/
theorem step_of_runBit_clear {s : State} (hs : s.status = .running) (hb : s.runBit = false) : step s = .next s.halt := by
  simp [step, hs, hb]

theorem step_readsInOrder {s : State} (hs : s.status = .running) : ReadsInOrder s (step s) := by
  cases hb : s.runBit with
  | true =>
    rw [step_of_ready ⟨hs, hb⟩]
    exact exec_readsInOrder s.current s.advance
  | false =>
    rw [step_of_runBit_clear hs hb]
    exact .inl rfl

theorem step_takesAtMostOneByte {s t : State} (h : step s = .next t) : TakesAtMostOneByte s t := by
  obtain ⟨hrun, -⟩ := step_next h
  have hr := step_readsInOrder hrun
  rwa [h] at hr

/-- A running core has a next state, or is blocked with no input. -/
theorem step_next_or_blocked {s : State} (hs : s.status = .running) :
    (∃ t, step s = .next t) ∨ (s.input = [] ∧ step s = .fault .keyboardBlocked) := by
  have hr := step_readsInOrder hs
  cases h : step s with
  | next t => exact .inl ⟨t, rfl⟩
  | fault f =>
    rw [h] at hr
    obtain ⟨rfl, hi⟩ := hr
    exact .inr ⟨hi, rfl⟩
  | refused x =>
    rw [h] at hr
    exact hr.elim

/-! ## Runs -/

/-- What a core that has no byte reads next is the host's. -/
theorem Run.byteAt_of_input_nil {r : Run} (h : r.core.input = []) (n : Nat) : r.byteAt n = r.host.byteAt n := by
  simp [Run.byteAt, h]

theorem Run.feed_of_input_ne_nil {r : Run} (h : r.core.input ≠ []) : r.feed = r := by
  obtain ⟨c, rest, hi⟩ := List.exists_cons_of_ne_nil h
  simp [Run.feed, hi]

theorem Run.feed_of_byteAt_none {r : Run} (h : r.byteAt 0 = none) : r.feed = r := by
  by_cases hi : r.core.input = []
  · have hu : r.host.uncons = none := by
      rwa [Run.byteAt_of_input_nil hi, Input.byteAt_zero, Option.map_eq_none_iff] at h
    simp [Run.feed, hi, hu]
  · exact Run.feed_of_input_ne_nil hi

theorem Run.feed_core_of_input_nil {r : Run} {c : Byte} (hi : r.core.input = []) (h : r.byteAt 0 = some c) :
    r.feed.core = r.core.supply [c] := by
  rw [Run.byteAt_of_input_nil hi, Input.byteAt_zero, Option.map_eq_some_iff] at h
  obtain ⟨⟨c', rest⟩, hu, rfl⟩ := h
  simp [Run.feed, hi, hu]

/-- The host supplies nothing, or its next byte. -/
theorem Run.feed_cases (r : Run) :
    (r.feed = r ∧ (r.core.input ≠ [] ∨ r.byteAt 0 = none)) ∨
      ∃ c, r.core.input = [] ∧ r.byteAt 0 = some c ∧ r.feed.core = r.core.supply [c] := by
  by_cases hi : r.core.input = []
  · cases hb : r.byteAt 0 with
    | none => exact .inl ⟨Run.feed_of_byteAt_none hb, .inr rfl⟩
    | some c => exact .inr ⟨c, hi, rfl, Run.feed_core_of_input_nil hi hb⟩
  · exact .inl ⟨Run.feed_of_input_ne_nil hi, .inl hi⟩

@[simp] theorem Run.feed_status (r : Run) : r.feed.core.status = r.core.status := by
  rcases r.feed_cases with ⟨hf, -⟩ | ⟨c, -, -, hf⟩ <;> rw [hf]
  rfl

/-- A core that has no byte even after the host's supply is at the end of `INPUT`. -/
theorem Run.byteAt_none_of_feed {r : Run} (h : r.feed.core.input = []) : r.byteAt 0 = none := by
  rcases r.feed_cases with ⟨hf, hi | hb⟩ | ⟨c, hi, -, hf⟩
  · rw [hf] at h
    exact absurd h hi
  · exact hb
  · simp [hf] at h

/-- What is still to be read depends on the core's bytes and the host's alone. -/
theorem Run.byteAt_congr {r t : Run} (hi : t.core.input = r.core.input) (hh : t.host = r.host) (n : Nat) :
    t.byteAt n = r.byteAt n := by
  rw [Run.byteAt, Run.byteAt, hi, hh]

/-- What is still to be read where the core has a next byte `c`, and `t` is left after it. -/
theorem Run.byteAt_of_input_cons {r t : Run} {c : Byte} (hi : r.core.input = c :: t.core.input) (hh : t.host = r.host) :
    r.byteAt 0 = some c ∧ ∀ n, t.byteAt n = r.byteAt (n + 1) := by
  simp [Run.byteAt, hi, hh]

/-- An iteration of a run takes no byte, or the next one into KBDR. -/
theorem runStep_takesAtMostOneByte {r t : Run} (h : runStep r = .next t) :
    (∀ n, t.byteAt n = r.byteAt n) ∨
      ∃ c, r.byteAt 0 = some c ∧ t.core.kbdr = c.setWidth 16 ∧ ∀ n, t.byteAt n = r.byteAt (n + 1) := by
  obtain ⟨hstep, hhost⟩ := runStep_next h
  simp only [← Run.byteAt_feed r]
  rcases step_takesAtMostOneByte hstep with hsame | ⟨c, hcons, hkbdr⟩
  · exact .inl (Run.byteAt_congr hsame hhost)
  · obtain ⟨hzero, hsucc⟩ := Run.byteAt_of_input_cons hcons hhost
    exact .inr ⟨c, hzero, hkbdr, hsucc⟩

/-- A running run has a next iteration, or is blocked at the end of `INPUT`. -/
theorem runStep_next_or_blocked {r : Run} (hs : r.core.status = .running) :
    (∃ t, runStep r = .next t) ∨ (r.byteAt 0 = none ∧ runStep r = .fault .keyboardBlocked) := by
  rcases step_next_or_blocked (r.feed_status.trans hs) with ⟨t, ht⟩ | ⟨hi, hf⟩
  · exact .inl ⟨⟨t, r.feed.host⟩, by rw [runStep, ht]⟩
  · exact .inr ⟨Run.byteAt_none_of_feed hi, by rw [runStep, hf]⟩

/-- Settles O55: an iteration is a step of the core after the host's supply, a step takes at most the next byte, and it
blocks only where the core has none. -/
theorem runsReadTheirInputInOrder : Obligations.RunsReadTheirInputInOrder := by
  refine ⟨fun r t h => runStep_takesAtMostOneByte h, fun r t hr h => ?_, fun r t c hi hb h => ?_,
    fun r hs => runStep_next_or_blocked hs⟩
  · obtain ⟨hstep, -⟩ := runStep_next h
    have hf : r.feed = r := hr.elim Run.feed_of_input_ne_nil Run.feed_of_byteAt_none
    rwa [hf] at hstep
  · obtain ⟨hstep, -⟩ := runStep_next h
    rwa [Run.feed_core_of_input_nil hi hb] at hstep

end Sys2Proof.Machine
end

section
/-! What one instruction can do to the registers, the pc, the PSR and the run state (10_state.md R22 to R33), once for all
instructions, and the statements that follow from it. -/

namespace Sys2Proof.Machine

/-! ## The effect of an instruction -/

/-- From `s` to `m`, at most the keyboard has moved, as a data read moves it. -/
def ReadsOnly (s m : State) : Prop := ∃ kbdr input, m = { s with kbdr := kbdr, input := input }

theorem ReadsOnly.refl (s : State) : ReadsOnly s s := ⟨s.kbdr, s.input, rfl⟩

theorem ReadsOnly.trans {s m n : State} (h : ReadsOnly s m) (h' : ReadsOnly m n) : ReadsOnly s n := by
  obtain ⟨_, _, rfl⟩ := h
  obtain ⟨kbdr, input, rfl⟩ := h'
  exact ⟨kbdr, input, rfl⟩

theorem memRead_readsOnly {a v : Word} {s m : State} (h : memRead a s = .ok (v, m)) : ReadsOnly s m :=
  ⟨m.kbdr, m.input, memRead_ok h⟩

/-- Everything instruction `i` can do from `s`: a result and its condition codes; a store; a jump; a call; and the ends of
RTI and of the reserved opcode. Up to the keyboard, `m` is `s`. -/
inductive Effect (i : Instr) (s : State) : State → Prop
  | result {dr v m} (hcc : setccReg i = some dr) (hm : ReadsOnly s m) : Effect i s (writeResult dr v m)
  | store {a v m} (hcc : setccReg i = none) (hm : ReadsOnly s m) : Effect i s (memWrite a v m)
  | jump {target} (hcc : setccReg i = none) (htransfer : transfersControl i = true) : Effect i s (s.setPc target)
  | call {target} (hcc : setccReg i = none) (htransfer : transfersControl i = true) (hwrites : regsWritten i = [7]) :
      Effect i s (s.link.setPc target)
  | returned {m target psr} (hi : i = .rti) (hm : ReadsOnly s m) :
      Effect i s { m.bumpStack.bumpStack with pc := target, psr := psr }
  | violation (hi : i = .rti) (huser : s.userMode = true) :
      Effect i s { s with status := .error .privilegeViolation }
  | illegal (hi : i = .reserved) : Effect i s { s with status := .error .illegalOpcode }

section

variable {s t : State}

theorem loadFrom_effect {i : Instr} {a : Word} {dr : RegIx} {m : State} (hcc : setccReg i = some dr) (hm : ReadsOnly s m)
    (h : loadFrom a dr m = .next t) : Effect i s t := by
  obtain ⟨v, n, hread, h⟩ := readThen_next h
  cases h
  exact .result hcc (hm.trans (memRead_readsOnly hread))

theorem execLdi_effect {dr : RegIx} {off : BitVec 9} (h : execLdi dr off s = .next t) : Effect (.ldi dr off) s t := by
  obtain ⟨p, m, hread, h⟩ := readThen_next h
  exact loadFrom_effect rfl (memRead_readsOnly hread) h

theorem execSti_effect {sr : RegIx} {off : BitVec 9} (h : execSti sr off s = .next t) : Effect (.sti sr off) s t := by
  obtain ⟨p, m, hread, h⟩ := readThen_next h
  cases h
  exact .store rfl (memRead_readsOnly hread)

theorem returnFromTrap_effect (h : returnFromTrap s = .next t) : Effect .rti s t := by
  obtain ⟨target, m, psr, u, hm, hu, rfl⟩ := returnFromTrap_next h
  obtain ⟨_, _, rfl⟩ := memRead_readsOnly hm
  obtain ⟨kbdr, input, rfl⟩ := memRead_readsOnly hu
  exact .returned (m := { s with kbdr := kbdr, input := input }) rfl ⟨kbdr, input, rfl⟩

theorem execRti_effect (h : execRti s = .next t) : Effect .rti s t := by
  unfold execRti at h
  split at h
  next huser =>
    cases raiseError_next h
    exact .violation rfl huser
  next => exact returnFromTrap_effect h

theorem execTrap_effect {vect : BitVec 8} (h : execTrap vect s = .next t) : Effect (.trap vect) s t := by
  rw [execTrap, enterTrap_trapEntry] at h
  cases h
  exact .call rfl rfl rfl

/-- A branch that is not taken jumps to the pc it has. -/
theorem execBr_effect {n z p : Bool} {off : BitVec 9} (h : execBr n z p off s = .next t) : Effect (.br n z p off) s t := by
  unfold execBr at h
  split at h
  · cases h
    exact .jump rfl rfl
  · cases h
    exact .jump (target := s.pc) rfl rfl

/-- If an instruction answers a next state, that state is one of its effects. -/
theorem exec_effect {i : Instr} (h : exec i s = .next t) : Effect i s t := by
  cases i with
  | addReg | addImm | andReg | andImm | not | lea =>
    cases h
    exact .result rfl (.refl s)
  | ld | ldr => exact loadFrom_effect rfl (.refl s) h
  | ldi => exact execLdi_effect h
  | st | str =>
    cases h
    exact .store rfl (.refl s)
  | sti => exact execSti_effect h
  | br => exact execBr_effect h
  | jmp | ret =>
    cases h
    exact .jump rfl rfl
  | jsr | jsrr =>
    cases h
    exact .call rfl rfl rfl
  | trap => exact execTrap_effect h
  | rti => exact execRti_effect h
  | reserved =>
    cases h
    exact .illegal rfl

/-! ## Registers, pc, PSR and run state after an instruction -/

theorem regsWritten_of_setccReg {i : Instr} {dr : RegIx} (h : setccReg i = some dr) : regsWritten i = [dr] := by
  cases i <;> cases h <;> rfl

theorem bumpStack_reg_of_ne {r : RegIx} (h : r ≠ 6) : s.bumpStack.reg r = s.reg r := State.reg_setReg_other s 6 r _ h.symm

theorem ReadsOnly.reg {m : State} (h : ReadsOnly s m) (r : RegIx) : m.reg r = s.reg r := by
  obtain ⟨_, _, rfl⟩ := h
  rfl

theorem Effect.keepsRegs {i : Instr} (h : Effect i s t) : KeepsRegs (regsWritten i) s t := by
  intro r hr
  cases h with
  | result hcc hm =>
    rw [regsWritten_of_setccReg hcc, List.mem_singleton] at hr
    rw [writeResult_reg, if_neg (Ne.symm hr), hm.reg]
  | store hcc hm =>
    obtain ⟨hx, -⟩ := memWrite_keeps _ _ _
    rw [State.reg, hx]
    exact hm.reg r
  | call hcc htransfer hwrites =>
    rw [hwrites, List.mem_singleton] at hr
    exact State.reg_setReg_other s 7 r _ (Ne.symm hr)
  | returned hi hm =>
    subst hi
    have hr : r ≠ 6 := List.mem_singleton.not.mp hr
    change State.reg (State.bumpStack (State.bumpStack _)) r = s.reg r
    rw [bumpStack_reg_of_ne hr, bumpStack_reg_of_ne hr, hm.reg]
  | jump | violation | illegal => rfl

theorem Effect.pc {i : Instr} (htransfer : transfersControl i = false) (h : Effect i s t) : t.pc = s.pc := by
  cases h with
  | result hcc hm =>
    obtain ⟨_, _, rfl⟩ := hm
    rfl
  | store hcc hm =>
    obtain ⟨_, _, rfl⟩ := hm
    obtain ⟨-, hpc, -⟩ := memWrite_keeps _ _ _
    exact hpc
  | jump hcc htrue | call hcc htrue => simp [htrue] at htransfer
  | returned hi | violation hi =>
    subst hi
    cases htransfer
  | illegal => rfl

/-- An instruction that sets the condition codes ends with `setcc` of its destination's new value. -/
theorem Effect.eq_setcc {i : Instr} {dr : RegIx} (hcc : setccReg i = some dr) (h : Effect i s t) :
    ∃ v u, t = setcc v u ∧ t.reg dr = v ∧ u.psr = s.psr := by
  cases h with
  | @result dr' v m hcc' hm =>
    obtain ⟨_, _, rfl⟩ := hm
    cases hcc.symm.trans hcc'
    exact ⟨v, _, rfl, State.reg_setReg_same _ dr v, rfl⟩
  | store hnone | jump hnone | call hnone => simp [hnone] at hcc
  | returned hi | violation hi | illegal hi =>
    subst hi
    cases hcc

theorem Effect.psr {i : Instr} (hcc : setccReg i = none) (hrti : i ≠ .rti) (h : Effect i s t) : t.psr = s.psr := by
  cases h with
  | result hsome => simp [hsome] at hcc
  | store hnone hm =>
    obtain ⟨_, _, rfl⟩ := hm
    obtain ⟨-, -, hpsr, -⟩ := memWrite_keeps _ _ _
    exact hpsr
  | returned hi => exact absurd hi hrti
  | jump | call | violation | illegal => rfl

theorem Effect.status {i : Instr} (h : Effect i s t) :
    t.status = s.status ∨ (i = .reserved ∧ t.status = .error .illegalOpcode) ∨
      (i = .rti ∧ s.userMode = true ∧ t.status = .error .privilegeViolation) := by
  cases h with
  | store hcc hm =>
    obtain ⟨_, _, rfl⟩ := hm
    obtain ⟨-, -, -, hstatus, -⟩ := memWrite_keeps _ _ _
    exact .inl hstatus
  | result hcc hm | returned hi hm =>
    obtain ⟨_, _, rfl⟩ := hm
    exact .inl rfl
  | jump | call => exact .inl rfl
  | violation hi huser => exact .inr (.inr ⟨hi, huser, rfl⟩)
  | illegal hi => exact .inr (.inl ⟨hi, rfl⟩)

end

/-! ## The flags that `setcc` writes -/

theorem oneHot_ccOf (v : Word) : OneHot (ccOf v) := by
  rcases ccOf_cases v with ⟨-, h⟩ | ⟨-, h⟩ | ⟨-, h⟩ <;> simp [OneHot, h]

theorem oneHot_setcc (v : Word) (s : State) : OneHot (setcc v s).cc := by
  rw [cc_setcc]
  exact oneHot_ccOf v

theorem flagsFollow_setcc (v : Word) (s : State) : FlagsFollow v (setcc v s) := by
  have hbit : ∀ k, k < 3 → (setcc v s).psr.getLsbD k = (ccOf v).getLsbD k := fun k hk => by
    rw [setcc_psr, withCc_getLsbD _ _ _ (by omega), if_pos hk]
  rw [FlagsFollow, hbit 2 (by decide), hbit 1 (by decide), hbit 0 (by decide)]
  rcases ccOf_cases v with ⟨hv, h⟩ | ⟨hv, h⟩ | ⟨hv, h⟩ <;> rw [h] <;> simp <;> omega

theorem withCc_high (psr : Word) (cc : BitVec 3) {k : Nat} (hk : 3 ≤ k) : (withCc psr cc).getLsbD k = psr.getLsbD k := by
  by_cases h16 : k < 16
  · rw [withCc_getLsbD _ _ _ h16, if_neg (by omega)]
  · rw [BitVec.getLsbD_of_ge _ _ (by omega), BitVec.getLsbD_of_ge _ _ (by omega)]

theorem keepsPsrHigh_setcc (v : Word) (s : State) : KeepsPsrHigh s (setcc v s) := fun _ hk => withCc_high _ _ hk

theorem exec_setcc {i : Instr} {s t : State} {dr : RegIx} (hcc : setccReg i = some dr) (h : exec i s = .next t) :
    FlagsFollow (t.reg dr) t ∧ OneHot t.cc ∧ KeepsPsrHigh s t := by
  obtain ⟨v, u, ht, hdr, hpsr⟩ := (exec_effect h).eq_setcc hcc
  rw [hdr, ht]
  exact ⟨flagsFollow_setcc v u, oneHot_setcc v u, fun k hk => by rw [keepsPsrHigh_setcc v u k hk, hpsr]⟩

/-- Settles O41: a step is the halt check or an instruction, and an instruction but RTI either ends with `setcc` or leaves
the PSR alone. -/
theorem oneHotFlagsAreKept : Obligations.OneHotFlagsAreKept := by
  intro s t hcc hrti h
  have kept : t.psr = s.psr → OneHot t.cc := fun hpsr => by rwa [State.cc, hpsr]
  obtain ⟨-, ⟨-, rfl⟩ | ⟨-, h⟩⟩ := step_next h
  · exact kept rfl
  · cases hset : setccReg s.current with
    | none =>
      have hpsr : t.psr = s.advance.psr := (exec_effect h).psr hset hrti
      exact kept hpsr
    | some dr =>
      obtain ⟨-, hone, -⟩ := exec_setcc hset h
      exact hone

/-! ## The run state and the pc after a step -/

theorem step_status {s t : State} (h : step s = .next t) :
    (t.status = .running ∧ s.runBit = true) ∨ (t.status = .halted ∧ s.runBit = false) ∨
      (t.status = .error .illegalOpcode ∧ s.current = .reserved) ∨
      (t.status = .error .privilegeViolation ∧ s.current = .rti ∧ s.userMode = true) := by
  obtain ⟨hrun, ⟨hbit, rfl⟩ | ⟨hbit, h⟩⟩ := step_next h
  · exact .inr (.inl ⟨rfl, hbit⟩)
  · rcases (exec_effect h).status with hs | ⟨hi, hs⟩ | ⟨hi, huser, hs⟩
    · exact .inl ⟨hs.trans hrun, hbit⟩
    · exact .inr (.inr (.inl ⟨hs, hi⟩))
    · exact .inr (.inr (.inr ⟨hs, hi, huser⟩))

theorem exec_rti_of_userMode {s : State} (h : s.userMode = true) : exec .rti s = raiseError .privilegeViolation s :=
  if_pos h

/-- Settles O31: the halt check and the two runtime errors are evaluated, and a step has no other effect on the run state. -/
theorem runStateChangesOnlySo : Obligations.RunStateChangesOnlySo := by
  refine ⟨fun _ _ _ => rfl, fun s hs t h => ?_, fun s hs hbit => ?_, fun s hr hi => ?_, fun s hr hi huser => ?_,
    fun s t h => step_status h⟩
  · obtain ⟨hrun, -⟩ := step_next h
    exact hs hrun
  · exact ⟨s.halt, step_of_runBit_clear hs hbit, rfl⟩
  · rw [step_of_ready hr, State.current, hi]
    exact ⟨_, rfl, rfl⟩
  · rw [step_of_ready hr, State.current, hi, exec_rti_of_userMode (s := s.advance) huser]
    exact ⟨_, rfl, rfl⟩

theorem step_pc {s t : State} (hr : Ready s) (htransfer : transfersControl (decode (fetch s.pc s)) = false)
    (h : step s = .next t) : t.pc = s.pc + 1#16 := by
  rw [step_of_ready hr] at h
  exact (exec_effect h).pc htransfer

/-- Settles O34: no effect of such an instruction moves the pc from `A + 1`. -/
theorem pcMovesToTheNextWord : Obligations.PcMovesToTheNextWord := by
  refine ⟨fun s t hr htransfer h => step_pc hr htransfer h, fun s t hr hpc htransfer h => ?_⟩
  rw [step_pc hr htransfer h, hpc]
  rfl

/-! ## Registers and flags -/

/-- Settles O35: each effect of an instruction is within its row. -/
theorem onlyTheTablesRegistersAreWritten : Obligations.OnlyTheTablesRegistersAreWritten :=
  fun _ _ _ h => (exec_effect h).keepsRegs

/-- Settles O37: the flags are those of `ccOf`, below the thirteen bits that `withCc` keeps. -/
theorem setccSetsExactlyOneFlag : Obligations.SetccSetsExactlyOneFlag :=
  fun v s => ⟨oneHot_setcc v s, flagsFollow_setcc v s, keepsPsrHigh_setcc v s, rfl⟩

/-- Settles O11: the sum is modulo 2^16, and the flags are those `setcc` writes for the result. -/
theorem aluGivesResultAndFlags : Obligations.AluGivesResultAndFlags :=
  fun a b => ⟨BitVec.toNat_add a b, rfl, rfl, rfl, fun op s => cc_setcc (aluResult op a b) s⟩

/-- Settles O43: Z alone is set, and the run bit is. -/
theorem resetMeetsTheInvariants : Obligations.ResetMeetsTheInvariants :=
  ⟨State.reset_mem_wf, .inr (.inl (by decide)), ⟨rfl, by decide⟩, by decide⟩

end Sys2Proof.Machine
end

section
/-! Two runs of one instruction from states that differ in what it does not look at: other registers (10_state.md R22), the
PSR (R28), or input that waits behind (20_memory.md R69). -/

namespace Sys2Proof.Machine

/-! ## Changes of a state that the accessor does not see -/

/-- The accessor answers the same before and after the change `f` of the state, and what it does commutes with `f`. -/
structure Unseen (f : State → State) : Prop where
  fetch (a : Word) (s : State) : fetch a (f s) = fetch a s
  take {s : State} {c : Byte} {rest : List Byte} : s.input = c :: rest →
    ∃ more, (f s).input = c :: more ∧
      { f s with kbdr := zext16 c, input := more } = f { s with kbdr := zext16 c, input := rest }
  write (a v : Word) (s : State) : memWrite a v (f s) = f (memWrite a v s)

/-- Besides, `f` has nothing to do with the pc and the run state. -/
structure UnseenByControl (f : State → State) : Prop extends Unseen f where
  pc (s : State) : (f s).pc = s.pc
  setPc (v : Word) (s : State) : (f s).setPc v = f (s.setPc v)
  raise (kind : ErrorKind) (s : State) : { f s with status := .error kind } = f { s with status := .error kind }

theorem Unseen.read {f : State → State} (hf : Unseen f) {a v : Word} {s m : State} (h : memRead a s = .ok (v, m)) :
    memRead a (f s) = .ok (v, f m) := by
  rcases memRead_cases a s with ⟨ha, hm⟩ | ⟨ha, c, rest, hi, hm⟩ | ⟨-, -, hm⟩ <;> cases hm.symm.trans h
  · rw [memRead_of_ne_kbdr ha, hf.fetch]
  · obtain ⟨more, hmore, heq⟩ := hf.take hi
    simp [memRead, ha, hmore, heq]

/-- `s` with other general registers. -/
def withRegs (x : Vector Word 8) (s : State) : State := { s with x := x }

/-- `s` with another PSR. -/
def withPsr (psr : Word) (s : State) : State := { s with psr := psr }

theorem unseen_withRegs (x : Vector Word 8) : UnseenByControl (withRegs x) where
  fetch _ _ := rfl
  take hi := ⟨_, hi, rfl⟩
  write a v s := by
    unfold memWrite
    cases select a <;> rfl
  pc _ := rfl
  setPc _ _ := rfl
  raise _ _ := rfl

theorem unseen_withPsr (psr : Word) : UnseenByControl (withPsr psr) where
  fetch _ _ := rfl
  take hi := ⟨_, hi, rfl⟩
  write a v s := by
    unfold memWrite
    cases select a <;> rfl
  pc _ := rfl
  setPc _ _ := rfl
  raise _ _ := rfl

theorem unseen_setPc (target : Word) : Unseen fun s => s.setPc target where
  fetch _ _ := rfl
  take hi := ⟨_, hi, rfl⟩
  write a v s := by
    unfold memWrite
    cases select a <;> rfl

theorem unseen_supply (bytes : List Byte) : UnseenByControl fun s => s.supply bytes where
  fetch _ _ := rfl
  take {s c rest} hi := ⟨rest ++ bytes, by rw [supply_input, hi, List.cons_append], rfl⟩
  write a v s := by
    unfold memWrite
    cases select a <;> rfl
  pc _ := rfl
  setPc _ _ := rfl
  raise _ _ := rfl

/-! ## Runs from `s` and from `f s` -/

/-- If the first answer is a next state, so is the second, and the two are related. -/
def Simulates (R : State → State → Prop) (a b : Result) : Prop := ∀ t, a = .next t → ∃ t', b = .next t' ∧ R t t'

theorem simulates_next {R : State → State → Prop} {t t' : State} (h : R t t') : Simulates R (.next t) (.next t') := by
  intro u hu
  cases hu
  exact ⟨t', rfl, h⟩

theorem readThen_simulates {f : State → State} (hf : Unseen f) {R : State → State → Prop} {a : Word} {s : State}
    {k k' : Word → State → Result} (hk : ∀ v m, memRead a s = .ok (v, m) → Simulates R (k v m) (k' v (f m))) :
    Simulates R (readThen a s k) (readThen a (f s) k') := by
  intro t h
  obtain ⟨v, m, hread, h⟩ := readThen_next h
  rw [readThen_ok k' (hf.read hread)]
  exact hk v m hread t h

/-- What `i` asks of a change `f` of the state `s` and of a relation `R` between answers, so that it does from `f s` what it
does from `s`: `f` keeps what `i` reads, and `R` holds after each kind of effect. -/
structure RunsAlike (i : Instr) (f : State → State) (R : State → State → Prop) (s : State) : Prop where
  reads {r : RegIx} : r ∈ regsRead i → ∀ m, ReadsOnly s m → (f m).reg r = m.reg r
  flags {n z p : Bool} {off : BitVec 9} : i = .br n z p off → (f s).cc = s.cc
  quiet : regsWritten i = [] → ∀ m, R m (f m)
  result {dr : RegIx} : setccReg i = some dr → ∀ v m, R (writeResult dr v m) (writeResult dr v (f m))
  call : regsWritten i = [7] → ∀ target, R (s.link.setPc target) ((f s).link.setPc target)
  rti : i = .rti → Simulates R (execRti s) (execRti (f s))

section

variable {f : State → State} {R : State → State → Prop} {s : State}

theorem RunsAlike.reads_self {i : Instr} (h : RunsAlike i f R s) {r : RegIx} (hr : r ∈ regsRead i) :
    (f s).reg r = s.reg r := h.reads hr s (.refl s)

theorem pcRelative9_unseen (hf : UnseenByControl f) (off : BitVec 9) : pcRelative9 off (f s) = pcRelative9 off s := by
  rw [Machine.pcRelative9, Machine.pcRelative9, hf.pc]

theorem loadFrom_simulates (hf : Unseen f) {dr : RegIx}
    (hR : ∀ v m, R (writeResult dr v m) (writeResult dr v (f m))) (a : Word) :
    Simulates R (loadFrom a dr s) (loadFrom a dr (f s)) :=
  readThen_simulates hf fun v m _ => simulates_next (hR v m)

theorem memWrite_simulates (hf : Unseen f) (hR : ∀ m, R m (f m)) (a v : Word) :
    Simulates R (.next (memWrite a v s)) (.next (memWrite a v (f s))) := by
  rw [hf.write]
  exact simulates_next (hR _)

theorem setPc_simulates (hf : UnseenByControl f) (hR : ∀ m, R m (f m)) (target : Word) :
    Simulates R (.next (s.setPc target)) (.next ((f s).setPc target)) := by
  rw [hf.setPc]
  exact simulates_next (hR _)

theorem execBr_simulates (hf : UnseenByControl f) {n z p : Bool} {off : BitVec 9} (h : RunsAlike (.br n z p off) f R s) :
    Simulates R (execBr n z p off s) (execBr n z p off (f s)) := by
  have htaken : branchTaken n z p (f s) = branchTaken n z p s := by rw [branchTaken, branchTaken, h.flags rfl]
  rw [execBr, execBr, htaken, pcRelative9_unseen hf]
  split
  · exact setPc_simulates hf (h.quiet rfl) _
  · exact simulates_next (h.quiet rfl s)

/-- A base of R7 is read after the link, any other register as it was. -/
theorem link_reg_unseen (hf : UnseenByControl f) {base : RegIx} (h : (f s).reg base = s.reg base) :
    (f s).link.reg base = s.link.reg base := by
  rw [State.link, State.link, State.reg_setReg, State.reg_setReg, hf.pc, h]

theorem enterTrap_simulates (hf : UnseenByControl f) {vect : BitVec 8}
    (hR : ∀ target, R (s.link.setPc target) ((f s).link.setPc target)) :
    Simulates R (enterTrap (trapEntry vect) s) (enterTrap (trapEntry vect) (f s)) := by
  have hword : (f s).mem.read (trapEntry vect).toNat = s.mem.read (trapEntry vect).toNat := by
    have h := hf.fetch (trapEntry vect) s
    simpa only [fetch, select_trapEntry] using h
  rw [enterTrap_trapEntry, enterTrap_trapEntry, hword]
  exact simulates_next (hR _)

/-- An instruction does the same from `s` and from `f s`. -/
theorem exec_simulates (hf : UnseenByControl f) {i : Instr} (h : RunsAlike i f R s) :
    Simulates R (exec i s) (exec i (f s)) := by
  cases i with
  | addReg dr sr1 sr2 | andReg dr sr1 sr2 =>
    simp only [exec, execAddReg, execAndReg, operate, h.reads_self (r := sr1) (by simp [regsRead]),
      h.reads_self (r := sr2) (by simp [regsRead])]
    exact simulates_next (h.result rfl _ s)
  | addImm dr sr | andImm dr sr | not dr sr =>
    simp only [exec, execAddImm, execAndImm, execNot, operate, h.reads_self (r := sr) (by simp [regsRead])]
    exact simulates_next (h.result rfl _ s)
  | lea dr off =>
    simp only [exec, execLea, pcRelative9_unseen hf]
    exact simulates_next (h.result rfl _ s)
  | ld dr off =>
    simp only [exec, execLd, pcRelative9_unseen hf]
    exact loadFrom_simulates hf.toUnseen (h.result rfl) _
  | ldr dr base off =>
    simp only [exec, execLdr, basePlusOffset, h.reads_self (r := base) (by simp [regsRead])]
    exact loadFrom_simulates hf.toUnseen (h.result rfl) _
  | ldi dr off =>
    simp only [exec, execLdi, pcRelative9_unseen hf]
    exact readThen_simulates hf.toUnseen fun p m _ => loadFrom_simulates hf.toUnseen (h.result rfl) p
  | st sr off =>
    simp only [exec, execSt, pcRelative9_unseen hf, h.reads_self (r := sr) (by simp [regsRead])]
    exact memWrite_simulates hf.toUnseen (h.quiet rfl) _ _
  | str sr base off =>
    simp only [exec, execStr, basePlusOffset, h.reads_self (r := sr) (by simp [regsRead]),
      h.reads_self (r := base) (by simp [regsRead])]
    exact memWrite_simulates hf.toUnseen (h.quiet rfl) _ _
  | sti sr off =>
    simp only [exec, execSti, pcRelative9_unseen hf]
    refine readThen_simulates hf.toUnseen fun p m hread => ?_
    rw [h.reads (r := sr) (by simp [regsRead]) m (memRead_readsOnly hread)]
    exact memWrite_simulates hf.toUnseen (h.quiet rfl) _ _
  | br => exact execBr_simulates hf h
  | jmp base =>
    simp only [exec, execJmp, h.reads_self (r := base) (by simp [regsRead])]
    exact setPc_simulates hf (h.quiet rfl) _
  | ret =>
    simp only [exec, execRet, h.reads_self (r := 7) (by simp [regsRead])]
    exact setPc_simulates hf (h.quiet rfl) _
  | jsr off =>
    simp only [exec, execJsr, pcRelative11, hf.pc]
    exact simulates_next (h.call rfl _)
  | jsrr base =>
    simp only [exec, execJsrr, link_reg_unseen hf (h.reads_self (r := base) (by simp [regsRead]))]
    exact simulates_next (h.call rfl _)
  | trap => exact enterTrap_simulates hf (h.call rfl)
  | rti => exact h.rti rfl
  | reserved =>
    simp only [exec, execReserved, raiseError, hf.raise]
    exact simulates_next (h.quiet rfl _)

end

/-! ## Other registers -/

/-- `t'` is `t` but for the general registers: it agrees on those listed, and the rest are those of `x`. -/
def AgreesOn (written : List RegIx) (x : Vector Word 8) (t t' : State) : Prop :=
  { t' with x := t.x } = t ∧ (∀ r ∈ written, t'.reg r = t.reg r) ∧ ∀ r, r ∉ written → t'.reg r = x.get r

theorem agreesOn_nil (x : Vector Word 8) (t : State) : AgreesOn [] x t (withRegs x t) :=
  ⟨rfl, fun _ hr => absurd hr (List.not_mem_nil), fun _ _ => rfl⟩

/-- One register written, with the same value in both answers. -/
theorem agreesOn_singleton {x : Vector Word 8} {t t' : State} {dr : RegIx} {v : Word} (hother : { t' with x := t.x } = t)
    (ht : t.reg dr = v) (ht' : ∀ r, t'.reg r = if dr = r then v else x.get r) : AgreesOn [dr] x t t' := by
  refine ⟨hother, fun r hr => ?_, fun r hr => ?_⟩ <;> rw [List.mem_singleton] at hr
  · rw [hr, ht', if_pos rfl, ht]
  · rw [ht', if_neg (Ne.symm hr)]

/-- What is agreed on does not depend on the listed register of `x`. -/
theorem AgreesOn.of_set {x : Vector Word 8} {t t' : State} {dr : RegIx} {v : Word} (h : AgreesOn [dr] (x.set dr v) t t') :
    AgreesOn [dr] x t t' := by
  obtain ⟨hother, hmem, hnot⟩ := h
  refine ⟨hother, hmem, fun r hr => ?_⟩
  rw [hnot r hr]
  exact State.reg_setReg_other (withRegs x t) dr r v (Ne.symm (List.mem_singleton.not.mp hr))

/-- The pop of the PSR is at the same address, and both stack pointers end one word up. -/
theorem popPsr_withRegs {x : Vector Word 8} {s : State} (h : x.get 6 = s.reg 6) :
    Simulates (AgreesOn [6] x) (popThen s fun psr u => .next (State.bumpStack { u with psr := psr }))
      (popThen (withRegs x s) fun psr u => .next (State.bumpStack { u with psr := psr })) := by
  have h6 : (withRegs x s).reg 6 = s.reg 6 := h
  rw [popThen, popThen, h6]
  refine readThen_simulates (unseen_withRegs x).toUnseen fun psr u hu => simulates_next ?_
  have hu6 : u.reg 6 = x.get 6 := ((memRead_readsOnly hu).reg 6).trans h.symm
  refine agreesOn_singleton rfl (v := x.get 6 + 1#16) ?_ fun r => State.reg_setReg (withRegs x u) 6 r _
  rw [bumpStack_reg_six, ← hu6]
  rfl

/-- After the pop of the pc the stack pointers agree again. -/
theorem returnFromTrap_withRegs {x : Vector Word 8} {s : State} (h : x.get 6 = s.reg 6) :
    Simulates (AgreesOn [6] x) (returnFromTrap s) (returnFromTrap (withRegs x s)) := by
  have h6 : (withRegs x s).reg 6 = s.reg 6 := h
  rw [returnFromTrap, returnFromTrap, popThen, popThen, h6]
  refine readThen_simulates (unseen_withRegs x).toUnseen fun target m hm t ht => ?_
  have hm6 : x.get 6 = m.reg 6 := h.trans ((memRead_readsOnly hm).reg 6).symm
  have hbump : (x.set 6 (x.get 6 + 1#16)).get 6 = (m.setPc target).bumpStack.reg 6 := by
    rw [bumpStack_reg_six, setPc_reg, ← hm6]
    exact State.reg_setReg_same (withRegs x m) 6 _
  obtain ⟨t', ht', hagrees⟩ := popPsr_withRegs hbump t ht
  exact ⟨t', ht', hagrees.of_set⟩

theorem execRti_withRegs {x : Vector Word 8} {s : State} (h : x.get 6 = s.reg 6) :
    Simulates (AgreesOn [6] x) (execRti s) (execRti (withRegs x s)) := by
  have hmode : (withRegs x s).userMode = s.userMode := rfl
  rw [execRti, execRti, hmode]
  split
  · refine simulates_next ⟨rfl, fun r hr => ?_, fun _ _ => rfl⟩
    rw [List.mem_singleton.mp hr]
    exact h
  · exact returnFromTrap_withRegs h

/-- Settles O36: the other registers are a change that neither the accessor nor the operands read see, and a write covers it. -/
theorem onlyTheTablesRegistersAreRead : Obligations.OnlyTheTablesRegistersAreRead := by
  intro i s t x hx h
  refine exec_simulates (f := withRegs x) (R := AgreesOn (regsWritten i) x) (unseen_withRegs x)
    { reads := fun hr m hm => (hx _ hr).trans (hm.reg _).symm
      flags := fun _ => rfl
      quiet := fun hnone m => ?_
      result := fun hcc v m => ?_
      call := fun hlink target => ?_
      rti := fun hi => ?_ } t h
  · rw [hnone]
    exact agreesOn_nil x m
  · rw [regsWritten_of_setccReg hcc]
    exact agreesOn_singleton rfl (State.reg_setReg_same m _ v) (writeResult_reg _ v (withRegs x m))
  · rw [hlink]
    exact agreesOn_singleton rfl (State.reg_setReg_same s 7 _) fun r => State.reg_setReg (withRegs x s) 7 r _
  · subst hi
    exact execRti_withRegs (hx 6 (by simp [regsRead]))

/-! ## Another PSR -/

/-- `t'` is `t` but for the PSR, whose bits 15:3 are those of `psr`. -/
def SamePsrApart (psr : Word) (t t' : State) : Prop :=
  { t' with psr := t.psr } = t ∧ ∀ k, 3 ≤ k → t'.psr.getLsbD k = psr.getLsbD k

/-- Settles O39: the PSR is a change that neither the accessor nor the operands see, and `setcc` keeps its high bits. -/
theorem onlyBranchAndReturnReadThePsr : Obligations.OnlyBranchAndReturnReadThePsr := by
  intro i s t psr hbr hrti h
  exact exec_simulates (f := withPsr psr) (R := SamePsrApart psr) (unseen_withPsr psr)
    { reads := fun _ _ _ => rfl
      flags := fun hi => absurd hi (hbr _ _ _ _)
      quiet := fun _ _ => ⟨rfl, fun _ _ => rfl⟩
      result := fun _ v m => ⟨rfl, fun _ hk => withCc_high psr (ccOf v) hk⟩
      call := fun _ _ => ⟨rfl, fun _ _ => rfl⟩
      rti := fun hi => absurd hi hrti } t h

/-! ## Input that waits behind -/

/-- `t'` is `t` with the bytes behind its input. -/
def IsSupplied (bytes : List Byte) (t t' : State) : Prop := t' = t.supply bytes

theorem execRti_supply (bytes : List Byte) (s : State) :
    Simulates (IsSupplied bytes) (execRti s) (execRti (s.supply bytes)) := by
  have hmode : (s.supply bytes).userMode = s.userMode := rfl
  rw [execRti, execRti, hmode]
  split
  · exact simulates_next rfl
  · exact readThen_simulates (unseen_supply bytes).toUnseen fun _ _ _ =>
      readThen_simulates (unseen_supply bytes).toUnseen fun _ _ _ => simulates_next rfl

theorem exec_supply {i : Instr} {s t : State} (bytes : List Byte) (h : exec i s = .next t) :
    exec i (s.supply bytes) = .next (t.supply bytes) := by
  obtain ⟨_, ht, rfl⟩ := exec_simulates (R := IsSupplied bytes) (unseen_supply bytes)
    { reads := fun _ _ _ => rfl
      flags := fun _ => rfl
      quiet := fun _ _ => rfl
      result := fun _ _ _ => rfl
      call := fun _ _ => rfl
      rti := fun _ => execRti_supply bytes s } t h
  exact ht

/-- Settles O45: the fetch and the instruction do not see the new bytes, nor does the halt check. -/
theorem suppliedInputOnlyWaits : Obligations.SuppliedInputOnlyWaits := by
  intro s t bytes h
  obtain ⟨hrun, ⟨hbit, rfl⟩ | ⟨hbit, h⟩⟩ := step_next h
  · exact step_of_runBit_clear hrun hbit
  · have hcurrent : (s.supply bytes).current = s.current := rfl
    rw [step_of_ready (s := s.supply bytes) ⟨hrun, hbit⟩, hcurrent]
    exact exec_supply bytes h

/-! ## The PSR after an instruction -/

/-- RTI in supervisor mode takes the PSR from the second pop, which is the read from `m` one word up: the pc and R6 do not
show in it. -/
theorem execRti_psr {s t m n : State} {newPc newPsr : Word} (hmode : s.userMode = false)
    (hm : ReadsWord (s.reg 6) newPc s m) (hn : ReadsWord (s.reg 6 + 1#16) newPsr m n) (h : execRti s = .next t) :
    t.psr = newPsr := by
  have hm6 : m.reg 6 = s.reg 6 := (memRead_readsOnly (memRead_of_readsWord hm)).reg 6
  have hread : memRead (s.reg 6 + 1#16) (m.setPc newPc).bumpStack =
      .ok (newPsr, withRegs (m.x.set 6 (m.reg 6 + 1#16)) (n.setPc newPc)) :=
    (unseen_withRegs _).read ((unseen_setPc newPc).read (memRead_of_readsWord hn))
  rw [execRti, hmode] at h
  obtain ⟨target, m', psr, u, hm', hu, rfl⟩ := returnFromTrap_next h
  cases (memRead_of_readsWord hm).symm.trans hm'
  rw [bumpStack_reg_six, setPc_reg, hm6] at hu
  cases hread.symm.trans hu
  rfl

/-- Settles O38: `setcc`, the second pop of RTI, the privilege violation, and the effects that keep the PSR. -/
theorem flagsChangeAsTheTableSays : Obligations.FlagsChangeAsTheTableSays := by
  refine ⟨fun i s t dr hcc h => exec_setcc hcc h, fun s t m n newPc newPsr hmode hm hn h => execRti_psr hmode hm hn h,
    fun s t huser h => ?_, fun i s t hcc hrti h => (exec_effect h).psr hcc hrti⟩
  rw [exec_rti_of_userMode huser] at h
  rw [raiseError_next h]

end Sys2Proof.Machine
end

section
/-! The accessor in the words of the spec (20_memory.md R53 to R61): what a data read, a data write and a fetch do at each
address, what a step does to the streams, and how a blocked step goes on. -/

namespace Sys2Proof.Machine

/-! ## The address decoder -/

theorem select_eq_ram {a : Word} :
    select a = .ram ↔ a ∉ ([0xFE00#16, 0xFE02#16, 0xFE04#16, 0xFE06#16, 0xFFFE#16] : List Word) := by
  rcases select_cases a with ⟨rfl, hs⟩ | ⟨rfl, hs⟩ | ⟨rfl, hs⟩ | ⟨rfl, hs⟩ | ⟨rfl, hs⟩ | ⟨ha, hs⟩
  case inr.inr.inr.inr.inr => exact iff_of_true hs ha
  all_goals exact iff_of_false (by simp [hs]) (by decide)

theorem select_ne_ram {a : Word} (h : a ∈ ([0xFE00#16, 0xFE02#16, 0xFE04#16, 0xFE06#16, 0xFFFE#16] : List Word)) :
    select a ≠ .ram := fun hs => select_eq_ram.mp hs h

/-- The word behind KBDR's address is RAM. -/
theorem select_succ_kbdr {a : Word} (h : select a = .kbdr) : select (a + 1#16) = .ram := by
  rw [select_eq_kbdr.mp h]
  rfl

/-! ## Data reads -/

/-- The words of the spec say what the accessor answers; `memRead_of_readsWord` is the other direction. -/
theorem readsWord_of_memRead {a v : Word} {s t : State} (h : memRead a s = .ok (v, t)) : ReadsWord a v s t := by
  refine ⟨?kbdr, ?kbsr, ?dsr, ?ddr, ?mcr, fun ha => ?ram⟩
  case kbdr =>
    rintro rfl
    rcases memRead_cases 0xFE02#16 s with ⟨hs, -⟩ | ⟨-, c, rest, hi, hm⟩ | ⟨-, -, hm⟩
    · exact absurd rfl hs
    · cases hm.symm.trans h
      exact ⟨c, rest, hi, rfl, rfl⟩
    · cases hm.symm.trans h
  case ram =>
    rw [memRead, select_eq_ram.mpr ha] at h
    cases h
    exact ⟨rfl, rfl⟩
  all_goals
    rintro rfl
    cases h
    exact ⟨rfl, rfl⟩

theorem memRead_of_readable {a : Word} {s : State} (h : Readable a s) : ∃ v t, memRead a s = .ok (v, t) := by
  rcases memRead_cases a s with ⟨-, hm⟩ | ⟨-, c, rest, -, hm⟩ | ⟨hk, hi, -⟩
  · exact ⟨_, _, hm⟩
  · exact ⟨_, _, hm⟩
  · exact absurd hi (h (select_eq_kbdr.mp hk))

theorem readsWord_of_readable {a : Word} {s : State} (h : Readable a s) :
    ∃ v t, memRead a s = .ok (v, t) ∧ ReadsWord a v s t := by
  obtain ⟨v, t, hm⟩ := memRead_of_readable h
  exact ⟨v, t, hm, readsWord_of_memRead hm⟩

theorem memRead_of_not_readable {a : Word} {s : State} (h : ¬ Readable a s) : memRead a s = .error .keyboardBlocked := by
  obtain ⟨rfl, hi⟩ := Classical.not_imp.mp h
  simp [memRead, select_eq_kbdr.mpr rfl, not_ne_iff.mp hi]

/-- Settles O25: the accessor's three answers, at the addresses they are for. -/
theorem dataReadGivesTheSelectedWord : Obligations.DataReadGivesTheSelectedWord :=
  ⟨fun _ _ h => readsWord_of_readable h, fun _ _ h => memRead_of_not_readable h⟩

/-! ## Data writes -/

theorem storesWord_memWrite (a v : Word) (s : State) : StoresWord a v s (memWrite a v s) := by
  rcases select_cases a with ⟨rfl, -⟩ | ⟨rfl, -⟩ | ⟨rfl, -⟩ | ⟨rfl, -⟩ | ⟨rfl, -⟩ | ⟨ha, hs⟩
  case inr.inr.inr.inr.inr =>
    rw [memWrite_of_ram v s hs]
    refine ⟨fun b hb => Memory.read_write_other _ v (mt BitVec.eq_of_toNat_eq hb), ?_⟩
    rw [if_neg ha]
    simp only [List.mem_cons, List.not_mem_nil, not_or] at ha
    simp [ha, KeepsRegs, State.reg]
  all_goals exact ⟨fun _ _ => rfl, rfl, rfl, rfl, rfl, rfl, rfl, rfl, rfl, rfl, rfl, rfl, fun _ _ => rfl⟩

/-- Settles O26: the six places of a data write, and the halt check of the next iteration. -/
theorem dataWriteReachesTheSelectedPlace : Obligations.DataWriteReachesTheSelectedPlace :=
  ⟨storesWord_memWrite, fun v s hs hv => step_of_runBit_clear (s := memWrite 0xFFFE#16 v s) hs hv⟩

/-! ## Fetches -/

/-- Settles O27: the word is the one that `Fetch` gives, at each of the six kinds of address. -/
theorem fetchHasNoSideEffect : Obligations.FetchHasNoSideEffect := by
  intro s w hr hkbsr hkbdr hdsr hddr hmcr hram
  have hw : w = fetch s.pc s := by
    rcases select_cases s.pc with ⟨ha, hs⟩ | ⟨ha, hs⟩ | ⟨ha, hs⟩ | ⟨ha, hs⟩ | ⟨ha, hs⟩ | ⟨ha, hs⟩ <;> rw [fetch, hs]
    exacts [hkbsr ha, hkbdr ha, hdsr ha, hddr ha, hmcr ha, hram ha]
  rw [step_of_ready hr, hw]
  rfl

theorem fetch_memWrite_ram {a : Word} (v : Word) (s : State) (h : select a = .ram) : fetch a (memWrite a v s) = v := by
  rw [memWrite_of_ram v s h, fetch, h]
  exact Memory.read_write_same _ _ _

/-- A store is seen by no fetch of another address. -/
theorem StoresWord.fetch_other {a b v : Word} {s t : State} (h : StoresWord a v s t) (hab : a ≠ b) :
    fetch b t = fetch b s := by
  obtain ⟨hother, -, hkbsr, hkbdr, hdsr, hddr, hmcr, -⟩ := h
  rcases select_cases b with ⟨rfl, -⟩ | ⟨rfl, -⟩ | ⟨rfl, -⟩ | ⟨rfl, -⟩ | ⟨rfl, -⟩ | ⟨-, hs⟩
  · exact hkbsr.trans (if_neg hab)
  · exact hkbdr.trans (if_neg hab)
  · exact hdsr.trans (if_neg hab)
  · exact hddr.trans (if_neg hab)
  · exact hmcr.trans (if_neg hab)
  · rw [fetch, fetch, hs]
    exact hother b hab.symm

/-- The word written at the pc is the next instruction. -/
theorem step_memWrite_pc {s : State} (v : Word) (hr : Ready s) (hs : select s.pc = .ram) :
    step (memWrite s.pc v s) = exec (decode v) { memWrite s.pc v s with pc := s.pc + 1#16 } := by
  rw [memWrite_of_ram v s hs]
  exact step_of_word (s := { s with mem := s.mem.write s.pc.toNat v }) hr hs (Memory.read_write_same _ _ _)

/-- Settles O28: a store to RAM is what a fetch of its address gives, and no other fetch sees a store. -/
theorem writtenWordIsFetched : Obligations.WrittenWordIsFetched :=
  ⟨fun _ v s ha => fetch_memWrite_ram v s (select_eq_ram.mpr ha),
    fun a _ v s hab => (storesWord_memWrite a v s).fetch_other hab,
    fun v _ hr hpc => step_memWrite_pc v hr (select_eq_ram.mpr hpc)⟩

/-! ## Device addresses and the RAM cells behind them -/

section

variable {a : Word} {s : State}

theorem fetch_withMem (cells : Memory) (ha : select a ≠ .ram) : fetch a { s with mem := cells } = fetch a s := by
  unfold fetch
  cases hs : select a
  case ram => exact absurd hs ha
  all_goals rfl

theorem memRead_withMem {v : Word} {t : State} (cells : Memory) (ha : select a ≠ .ram) (h : memRead a s = .ok (v, t)) :
    memRead a { s with mem := cells } = .ok (v, { t with mem := cells }) := by
  rcases memRead_cases a s with ⟨hk, hm⟩ | ⟨hk, c, rest, hi, hm⟩ | ⟨-, -, hm⟩ <;> cases hm.symm.trans h
  · rw [memRead_of_ne_kbdr hk, fetch_withMem cells ha]
  · simp [memRead, hk, hi]

theorem memWrite_mem_device (v : Word) (ha : select a ≠ .ram) : (memWrite a v s).mem = s.mem := by
  rw [memWrite_mem, if_neg ha]

end

/-- Settles O29: the accessor at the five addresses, whose cases do not mention the storage. -/
theorem deviceRegistersShadowRam : Obligations.DeviceRegistersShadowRam :=
  ⟨fun _ => ⟨rfl, rfl, rfl, rfl, rfl⟩,
    fun a _ s => ⟨readsWord_of_readable, memRead_of_not_readable, fun v => storesWord_memWrite a v s⟩,
    fun _ ha _ cells => ⟨fetch_withMem cells (select_ne_ram ha), fun _ _ => memRead_withMem cells (select_ne_ram ha),
      fun v => memWrite_mem_device v (select_ne_ram ha)⟩⟩

/-! ## The display -/

/-- From `s` to `t` the output is unchanged, or DDR's low byte has been added. -/
def EmitsAtMostOneByte (s t : State) : Prop :=
  t.output = s.output ∨ t.output = s.output ++ [t.ddr.setWidth 8]

theorem memWrite_emitsAtMostOneByte (a v : Word) (s : State) : EmitsAtMostOneByte s (memWrite a v s) := by
  obtain ⟨-, -, -, -, -, hddr, -, houtput, -⟩ := storesWord_memWrite a v s
  rw [EmitsAtMostOneByte, houtput, hddr]
  by_cases ha : a = 0xFE06#16
  · exact .inr (by rw [if_pos ha, if_pos ha])
  · exact .inl (if_neg ha)

theorem Effect.emitsAtMostOneByte {i : Instr} {s t : State} (h : Effect i s t) : EmitsAtMostOneByte s t := by
  cases h with
  | store hcc hm =>
    obtain ⟨_, _, rfl⟩ := hm
    exact memWrite_emitsAtMostOneByte _ _ _
  | result hcc hm | returned hi hm =>
    obtain ⟨_, _, rfl⟩ := hm
    exact .inl rfl
  | jump | call | violation | illegal => exact .inl rfl

theorem step_emitsAtMostOneByte {s t : State} (h : step s = .next t) : EmitsAtMostOneByte s t := by
  obtain ⟨-, ⟨-, rfl⟩ | ⟨-, h⟩⟩ := step_next h
  · exact .inl rfl
  · exact (exec_effect h).emitsAtMostOneByte

/-- Settles O44: the keyboard's part is `step_takesAtMostOneByte`, and of an instruction's effects a store alone emits. -/
theorem streamsMoveByOneByte : Obligations.StreamsMoveByOneByte :=
  fun _ _ h => ⟨step_takesAtMostOneByte h, step_emitsAtMostOneByte h⟩

/-! ## A blocked instruction and the byte it waits for -/

/-- The answer is a next state that has taken the byte `c` into KBDR, and `rest` is still to be read. -/
def Took (c : Byte) (rest : List Byte) (b : Result) : Prop := ∃ t, b = .next t ∧ t.kbdr = zext16 c ∧ t.input = rest

/-- If the answer without input is a fault, the answer with the bytes supplied takes the first of them. -/
def TookOnceSupplied (c : Byte) (rest : List Byte) (a b : Result) : Prop := ∀ f, a = .fault f → Took c rest b

theorem tookOnceSupplied_next {c : Byte} {rest : List Byte} (t : State) (b : Result) :
    TookOnceSupplied c rest (.next t) b := nofun

section

variable {c : Byte} {rest : List Byte} {s : State}

/-- A blocked read takes the byte itself, and what follows it must leave the keyboard alone; after any other read it is what
follows that waits for the byte. -/
theorem readThen_tookOnceSupplied {a : Word} {k : Word → State → Result} (hi : s.input = [])
    (hother : TookOnceSupplied c rest (k (fetch a s) s) (k (fetch a s) (s.supply (c :: rest))))
    (hkbdr : select a = .kbdr → Took c rest (k (zext16 c) { s with kbdr := zext16 c, input := rest })) :
    TookOnceSupplied c rest (readThen a s k) (readThen a (s.supply (c :: rest)) k) := by
  intro f h
  by_cases ha : select a = .kbdr
  · have hread : memRead a (s.supply (c :: rest)) = .ok (zext16 c, { s with kbdr := zext16 c, input := rest }) := by
      simp [memRead, ha, hi, State.supply]
    rw [readThen_ok k hread]
    exact hkbdr ha
  · rw [readThen_ok k (memRead_of_ne_kbdr ha)] at h
    rw [readThen_ok k (memRead_of_ne_kbdr ha)]
    exact hother f h

theorem loadFrom_tookOnceSupplied (hi : s.input = []) (a : Word) (dr : RegIx) :
    TookOnceSupplied c rest (loadFrom a dr s) (loadFrom a dr (s.supply (c :: rest))) :=
  readThen_tookOnceSupplied hi (tookOnceSupplied_next _ _) fun _ => ⟨_, rfl, rfl, rfl⟩

/-- The load after a pointer read from KBDR is from RAM. -/
theorem execLdi_tookOnceSupplied (hi : s.input = []) (dr : RegIx) (off : BitVec 9) :
    TookOnceSupplied c rest (execLdi dr off s) (execLdi dr off (s.supply (c :: rest))) :=
  readThen_tookOnceSupplied hi (loadFrom_tookOnceSupplied hi _ dr)
    fun _ => ⟨_, readThen_ram _ (select_zext16 c), rfl, rfl⟩

/-- The store after a pointer read from KBDR goes to RAM. -/
theorem execSti_tookOnceSupplied (hi : s.input = []) (sr : RegIx) (off : BitVec 9) :
    TookOnceSupplied c rest (execSti sr off s) (execSti sr off (s.supply (c :: rest))) :=
  readThen_tookOnceSupplied hi (tookOnceSupplied_next _ _)
    fun _ => ⟨_, congrArg _ (memWrite_of_ram _ _ (select_zext16 c)), rfl, rfl⟩

/-- The second pop after a first from KBDR is from the RAM word behind it. -/
theorem returnFromTrap_tookOnceSupplied (hi : s.input = []) :
    TookOnceSupplied c rest (returnFromTrap s) (returnFromTrap (s.supply (c :: rest))) := by
  refine readThen_tookOnceSupplied hi ?_ fun hk => ?_
  · exact readThen_tookOnceSupplied hi (tookOnceSupplied_next _ _) fun _ => ⟨_, rfl, rfl, rfl⟩
  · refine ⟨_, readThen_ram _ ?_, rfl, rfl⟩
    rw [bumpStack_reg_six]
    exact select_succ_kbdr hk

theorem execRti_tookOnceSupplied (hi : s.input = []) :
    TookOnceSupplied c rest (execRti s) (execRti (s.supply (c :: rest))) := by
  have hmode : (s.supply (c :: rest)).userMode = s.userMode := rfl
  rw [execRti, execRti, hmode]
  split
  · exact tookOnceSupplied_next _ _
  · exact returnFromTrap_tookOnceSupplied hi

theorem exec_tookOnceSupplied (hi : s.input = []) (i : Instr) :
    TookOnceSupplied c rest (exec i s) (exec i (s.supply (c :: rest))) := by
  cases i with
  | ld | ldr => exact loadFrom_tookOnceSupplied hi _ _
  | ldi dr off => exact execLdi_tookOnceSupplied hi dr off
  | sti sr off => exact execSti_tookOnceSupplied hi sr off
  | rti => exact execRti_tookOnceSupplied hi
  | trap vect =>
    simp only [exec, execTrap, enterTrap_trapEntry]
    exact tookOnceSupplied_next _ _
  | st | str | br | addReg | addImm | andReg | andImm | not | lea | jmp | ret | jsr | jsrr | reserved =>
    exact tookOnceSupplied_next _ _

end

/-- Settles O46: the core has no byte when it is blocked, and the instruction that then waits takes the first one supplied. -/
theorem blockedStepRunsOnceAByteArrives : Obligations.BlockedStepRunsOnceAByteArrives := by
  intro s c rest h
  rcases step_fault h with ⟨-, hf⟩ | ⟨hrun, hbit, hexec⟩
  · cases hf
  · have hreads := exec_readsInOrder s.current s.advance
    rw [hexec] at hreads
    obtain ⟨-, hi⟩ := hreads
    rw [step_of_ready (s := s.supply (c :: rest)) ⟨hrun, hbit⟩]
    exact exec_tookOnceSupplied hi s.current .keyboardBlocked hexec

end Sys2Proof.Machine
end

section
/-! The decoder and the encoder of instruction words (30_encoding.md R91 to R104): one equation per opcode, what the fields of
an encoded word are, and which bits the decoder does not look at. -/

namespace Sys2Proof.Machine

open Sys2Proof.Laws

/-! ## The decoder, opcode by opcode -/

section

variable {w : Word}

theorem decode_of_opcode_br (h : opcodeOf w = 0b0000#4) :
    decode w = .br (w.getLsbD 11) (w.getLsbD 10) (w.getLsbD 9) (w.extractLsb' 0 9) := by
  simp only [decode, opcodeOf_bits h]
  rfl

theorem decode_of_opcode_add (h : opcodeOf w = 0b0001#4) :
    decode w =
      if w.getLsbD 5 then .addImm (regAt w 9) (regAt w 6) (w.extractLsb' 0 5)
      else .addReg (regAt w 9) (regAt w 6) (regAt w 0) := by
  simp only [decode, opcodeOf_bits h]
  rfl

theorem decode_of_opcode_ld (h : opcodeOf w = 0b0010#4) : decode w = .ld (regAt w 9) (w.extractLsb' 0 9) := by
  simp only [decode, opcodeOf_bits h]
  rfl

theorem decode_of_opcode_st (h : opcodeOf w = 0b0011#4) : decode w = .st (regAt w 9) (w.extractLsb' 0 9) := by
  simp only [decode, opcodeOf_bits h]
  rfl

theorem decode_of_opcode_jsr (h : opcodeOf w = 0b0100#4) :
    decode w = if w.getLsbD 11 then .jsr (w.extractLsb' 0 11) else .jsrr (regAt w 6) := by
  simp only [decode, opcodeOf_bits h]
  rfl

theorem decode_of_opcode_and (h : opcodeOf w = 0b0101#4) :
    decode w =
      if w.getLsbD 5 then .andImm (regAt w 9) (regAt w 6) (w.extractLsb' 0 5)
      else .andReg (regAt w 9) (regAt w 6) (regAt w 0) := by
  simp only [decode, opcodeOf_bits h]
  rfl

theorem decode_of_opcode_ldr (h : opcodeOf w = 0b0110#4) : decode w = .ldr (regAt w 9) (regAt w 6) (w.extractLsb' 0 6) := by
  simp only [decode, opcodeOf_bits h]
  rfl

theorem decode_of_opcode_str (h : opcodeOf w = 0b0111#4) : decode w = .str (regAt w 9) (regAt w 6) (w.extractLsb' 0 6) := by
  simp only [decode, opcodeOf_bits h]
  rfl

theorem decode_of_opcode_rti (h : opcodeOf w = 0b1000#4) : decode w = .rti := by
  simp only [decode, opcodeOf_bits h]
  rfl

theorem decode_of_opcode_not (h : opcodeOf w = 0b1001#4) : decode w = .not (regAt w 9) (regAt w 6) := by
  simp only [decode, opcodeOf_bits h]
  rfl

theorem decode_of_opcode_ldi (h : opcodeOf w = 0b1010#4) : decode w = .ldi (regAt w 9) (w.extractLsb' 0 9) := by
  simp only [decode, opcodeOf_bits h]
  rfl

theorem decode_of_opcode_sti (h : opcodeOf w = 0b1011#4) : decode w = .sti (regAt w 9) (w.extractLsb' 0 9) := by
  simp only [decode, opcodeOf_bits h]
  rfl

theorem decode_of_opcode_jmp (h : opcodeOf w = 0b1100#4) : decode w = jumpVia (regAt w 6) := by
  simp only [decode, opcodeOf_bits h]
  rfl

theorem decode_of_opcode_reserved (h : opcodeOf w = 0b1101#4) : decode w = .reserved := by
  simp only [decode, opcodeOf_bits h]
  rfl

theorem decode_of_opcode_lea (h : opcodeOf w = 0b1110#4) : decode w = .lea (regAt w 9) (w.extractLsb' 0 9) := by
  simp only [decode, opcodeOf_bits h]
  rfl

theorem decode_of_opcode_trap (h : opcodeOf w = 0b1111#4) : decode w = .trap (w.extractLsb' 0 8) := by
  simp only [decode, opcodeOf_bits h]
  rfl

end

theorem opcode_cases (o : BitVec 4) :
    o = 0b0000#4 ∨ o = 0b0001#4 ∨ o = 0b0010#4 ∨ o = 0b0011#4 ∨ o = 0b0100#4 ∨ o = 0b0101#4 ∨ o = 0b0110#4 ∨
      o = 0b0111#4 ∨ o = 0b1000#4 ∨ o = 0b1001#4 ∨ o = 0b1010#4 ∨ o = 0b1011#4 ∨ o = 0b1100#4 ∨ o = 0b1101#4 ∨
      o = 0b1110#4 ∨ o = 0b1111#4 := by
  revert o
  decide

theorem opcode_jumpVia (base : RegIx) : opcode (jumpVia base) = 0b1100#4 := by
  unfold jumpVia
  split <;> rfl

/-- Each arm of the decoder names the four opcode bits it was chosen by. -/
theorem opcode_decode (w : Word) : opcode (decode w) = opcodeOf w := by
  refine (OpcodeBits.opcodeOf_eq ?_).symm
  unfold decode
  split
  all_goals
    rename_i h15 h14 h13 h12
    simp only [↓apply_ite opcode, ↓opcode_jumpVia, opcode, ite_self]
    exact ⟨h12, h13, h14, h15⟩

/-! ## Well-formed instructions -/

theorem wellFormed_of_ne {i : Instr} (h : i ≠ .jmp 7) : i.wellFormed = true := by
  cases i with
  | jmp base => exact decide_eq_true fun hb => h (congrArg _ hb)
  | _ => rfl

theorem jumpVia_ne (base : RegIx) : jumpVia base ≠ .jmp 7 := by
  unfold jumpVia
  split
  · exact Instr.noConfusion
  next hb => exact fun h => hb (Instr.jmp.inj h)

/-- Only the words of format JMP could decode to JMP, and `jumpVia` names R7's RET. -/
theorem decode_ne (w : Word) : decode w ≠ .jmp 7 := by
  intro h
  have ho : opcodeOf w = 0b1100#4 := by rw [← opcode_decode, h, opcode]
  rw [decode_of_opcode_jmp ho] at h
  exact jumpVia_ne _ h

/-- Settles O2: no word decodes to a JMP that names R7. -/
theorem decodedInstructionIsWellFormed : Obligations.DecodedInstructionIsWellFormed := by
  refine ⟨fun w => wellFormed_of_ne (decode_ne w), fun w h => ?_⟩
  have hseven : regAt w 6 = 7 ↔ w.extractLsb' 6 3 = 0b111#3 := BitVec.toFin_inj (y := 0b111#3)
  rw [decode_of_opcode_jmp h, jumpVia]
  exact if_congr hseven rfl rfl

/-! ## The fields of an encoded word -/

section

variable {n : Nat} (lo : Nat) (v : BitVec n)

@[simp] theorem getElem_fieldAt {k : Nat} (hk : k < 16) :
    (fieldAt lo v)[k] = (decide (lo ≤ k) && v.getLsbD (k - lo)) := by
  rw [← BitVec.getLsbD_eq_getElem hk, getLsbD_fieldAt lo v k hk]

@[simp] theorem extractLsb'_fieldAt_same (h : lo + n ≤ 16) : (fieldAt lo v).extractLsb' lo n = v := by
  ext k hk
  rw [BitVec.getElem_extractLsb', getLsbD_fieldAt _ _ _ (by omega)]
  simp [BitVec.getLsbD_eq_getElem hk]

@[simp] theorem extractLsb'_fieldAt_other {lo' n' : Nat} (h : lo' + n' ≤ lo ∨ lo + n ≤ lo') :
    (fieldAt lo v).extractLsb' lo' n' = 0#n' := by
  ext k hk
  rw [BitVec.getElem_extractLsb', BitVec.getElem_zero]
  by_cases hb : lo' + k < 16
  · rw [getLsbD_fieldAt _ _ _ hb]
    rcases h with h | h
    · rw [decide_eq_false (by omega), Bool.false_and]
    · rw [BitVec.getLsbD_of_ge _ _ (by omega), Bool.and_false]
  · exact BitVec.getLsbD_of_ge _ _ (by omega)

theorem fieldAt_and_eq_zero {m : Word} (hm : m.extractLsb' lo n = 0#n) : fieldAt lo v &&& m = 0#16 := by
  ext k hk
  rw [BitVec.getElem_and, getElem_fieldAt, BitVec.getElem_zero]
  by_cases hfield : lo ≤ k ∧ k - lo < n
  · have hbit : m[k] = false := by
      simpa [hfield, hk] using congrArg (·.getLsbD (k - lo)) hm
    rw [hbit, Bool.and_false]
  · rcases not_and_or.mp hfield with h | h
    · rw [decide_eq_false h, Bool.false_and, Bool.false_and]
    · rw [BitVec.getLsbD_of_ge _ _ (by omega), Bool.and_false, Bool.false_and]

end

/-- Settles O1: the opcode bits choose the arm, the form bit its branch, and each field is read where it was written. -/
theorem encodedInstructionDecodesBack : Obligations.EncodedInstructionDecodesBack := by
  intro i hi
  cases i with
  | br n z p off =>
    rw [decode_of_opcode_br (OpcodeBits.br n z p off)]
    simp [encode, BitVec.extractLsb'_or]
  | addReg dr sr1 sr2 =>
    rw [decode_of_opcode_add (OpcodeBits.addReg dr sr1 sr2)]
    simp [encode, regAt, regField, BitVec.extractLsb'_or]
  | addImm dr sr1 imm =>
    rw [decode_of_opcode_add (OpcodeBits.addImm dr sr1 imm)]
    simp [encode, regAt, regField, BitVec.extractLsb'_or]
  | ld dr off =>
    rw [decode_of_opcode_ld (OpcodeBits.ld dr off)]
    simp [encode, regAt, regField, BitVec.extractLsb'_or]
  | st sr off =>
    rw [decode_of_opcode_st (OpcodeBits.st sr off)]
    simp [encode, regAt, regField, BitVec.extractLsb'_or]
  | jsr off =>
    rw [decode_of_opcode_jsr (OpcodeBits.jsr off)]
    simp [encode, BitVec.extractLsb'_or]
  | jsrr base =>
    rw [decode_of_opcode_jsr (OpcodeBits.jsrr base)]
    simp [encode, regAt, regField, BitVec.extractLsb'_or]
  | andReg dr sr1 sr2 =>
    rw [decode_of_opcode_and (OpcodeBits.andReg dr sr1 sr2)]
    simp [encode, regAt, regField, BitVec.extractLsb'_or]
  | andImm dr sr1 imm =>
    rw [decode_of_opcode_and (OpcodeBits.andImm dr sr1 imm)]
    simp [encode, regAt, regField, BitVec.extractLsb'_or]
  | ldr dr base off =>
    rw [decode_of_opcode_ldr (OpcodeBits.ldr dr base off)]
    simp [encode, regAt, regField, BitVec.extractLsb'_or]
  | str sr base off =>
    rw [decode_of_opcode_str (OpcodeBits.str sr base off)]
    simp [encode, regAt, regField, BitVec.extractLsb'_or]
  | rti => exact decode_of_opcode_rti OpcodeBits.rti
  | not dr sr =>
    rw [decode_of_opcode_not (OpcodeBits.not dr sr)]
    simp [encode, regAt, regField, BitVec.extractLsb'_or]
  | ldi dr off =>
    rw [decode_of_opcode_ldi (OpcodeBits.ldi dr off)]
    simp [encode, regAt, regField, BitVec.extractLsb'_or]
  | sti sr off =>
    rw [decode_of_opcode_sti (OpcodeBits.sti sr off)]
    simp [encode, regAt, regField, BitVec.extractLsb'_or]
  | jmp base =>
    have hbase : base ≠ 7 := of_decide_eq_true hi
    rw [decode_of_opcode_jmp (OpcodeBits.jmp base)]
    simp [encode, regAt, regField, BitVec.extractLsb'_or, jumpVia, hbase]
  | ret => exact decode_of_opcode_jmp OpcodeBits.ret
  | reserved => exact decode_of_opcode_reserved OpcodeBits.reserved
  | lea dr off =>
    rw [decode_of_opcode_lea (OpcodeBits.lea dr off)]
    simp [encode, regAt, regField, BitVec.extractLsb'_or]
  | trap vect =>
    rw [decode_of_opcode_trap (OpcodeBits.trap vect)]
    simp [encode, BitVec.extractLsb'_or]

/-! ## Ignored bits -/

section

variable {w m : Word} (d : Word)

theorem extractLsb'_xor_and {lo n : Nat} (hm : m.extractLsb' lo n = 0#n) :
    (w ^^^ (d &&& m)).extractLsb' lo n = w.extractLsb' lo n := by
  rw [BitVec.extractLsb'_xor, BitVec.extractLsb'_and, hm, BitVec.and_zero, BitVec.xor_zero]

theorem regAt_xor_and {lo : Nat} (hm : m.extractLsb' lo 3 = 0#3) : regAt (w ^^^ (d &&& m)) lo = regAt w lo :=
  congrArg BitVec.toFin (extractLsb'_xor_and d hm)

end

theorem ignoredBits_jumpVia (base : RegIx) : ignoredBits (jumpVia base) = 0x0E3F#16 := by
  unfold jumpVia
  split <;> rfl

/-- No opcode bit is ignored. -/
theorem opcodeOf_ignoredBits (i : Instr) : opcodeOf (ignoredBits i) = 0#4 := by
  cases i <;> simp [opcodeOf, ignoredBits]

theorem decode_xor_of_ignoredBits_zero {w : Word} (h : ignoredBits (decode w) = 0x0000#16) (d : Word) :
    decode (w ^^^ (d &&& ignoredBits (decode w))) = decode w := by
  rw [h, BitVec.and_zero, BitVec.xor_zero]

/-- A word with other ignored bits has the same opcode and form bit, and the same bits in the fields of its format. The cases
are in the order of the opcode map (R100). -/
theorem decode_xor_ignoredBits (w d : Word) : decode (w ^^^ (d &&& ignoredBits (decode w))) = decode w := by
  have ho : opcodeOf (w ^^^ (d &&& ignoredBits (decode w))) = opcodeOf w :=
    extractLsb'_xor_and d (opcodeOf_ignoredBits _)
  rcases opcode_cases (opcodeOf w) with h | h | h | h | h | h | h | h | h | h | h | h | h | h | h | h
  all_goals rw [h] at ho
  · exact decode_xor_of_ignoredBits_zero (by rw [decode_of_opcode_br h, ignoredBits]) d
  · rw [decode_of_opcode_add ho, decode_of_opcode_add h]
    cases hform : w[5] <;> simp [hform, ignoredBits, regAt_xor_and]
  · exact decode_xor_of_ignoredBits_zero (by rw [decode_of_opcode_ld h, ignoredBits]) d
  · exact decode_xor_of_ignoredBits_zero (by rw [decode_of_opcode_st h, ignoredBits]) d
  · rw [decode_of_opcode_jsr ho, decode_of_opcode_jsr h]
    cases hform : w[11] <;> simp [hform, ignoredBits, regAt_xor_and]
  · rw [decode_of_opcode_and ho, decode_of_opcode_and h]
    cases hform : w[5] <;> simp [hform, ignoredBits, regAt_xor_and]
  · exact decode_xor_of_ignoredBits_zero (by rw [decode_of_opcode_ldr h, ignoredBits]) d
  · exact decode_xor_of_ignoredBits_zero (by rw [decode_of_opcode_str h, ignoredBits]) d
  · rw [decode_of_opcode_rti ho, decode_of_opcode_rti h]
  · rw [decode_of_opcode_not ho, decode_of_opcode_not h]
    simp [ignoredBits, regAt_xor_and]
  · exact decode_xor_of_ignoredBits_zero (by rw [decode_of_opcode_ldi h, ignoredBits]) d
  · exact decode_xor_of_ignoredBits_zero (by rw [decode_of_opcode_sti h, ignoredBits]) d
  · rw [decode_of_opcode_jmp ho, decode_of_opcode_jmp h, ignoredBits_jumpVia, regAt_xor_and d (by decide)]
  · rw [decode_of_opcode_reserved ho, decode_of_opcode_reserved h]
  · exact decode_xor_of_ignoredBits_zero (by rw [decode_of_opcode_lea h, ignoredBits]) d
  · rw [decode_of_opcode_trap ho, decode_of_opcode_trap h, ignoredBits, extractLsb'_xor_and d (by decide)]

/-- The bit that chooses the form of ADD, AND and JSR decides which bits of the format are ignored. -/
theorem ignoredBits_eq (i : Instr) : ignoredBits i =
    if opcode i = 0b0001#4 ∧ (encode i).getLsbD 5 = false ∨ opcode i = 0b0101#4 ∧ (encode i).getLsbD 5 = false then 0x0018#16
    else if opcode i = 0b1001#4 then 0x003F#16
    else if opcode i = 0b1100#4 then 0x0E3F#16
    else if opcode i = 0b0100#4 ∧ (encode i).getLsbD 11 = false then 0x063F#16
    else if opcode i = 0b1111#4 then 0x0F00#16
    else if opcode i = 0b1000#4 ∨ opcode i = 0b1101#4 then 0x0FFF#16
    else 0x0000#16 := by
  cases i with
  | addReg | addImm | andReg | andImm | jsr | jsrr => simp [ignoredBits, opcode, encode, regField]
  | br | ld | st | ldr | str | rti | not | ldi | sti | jmp | ret | reserved | lea | trap => simp [ignoredBits, opcode]

theorem encode_and_ignoredBits (i : Instr) :
    encode i &&& ignoredBits i = if opcode i = 0b1001#4 then 0x003F#16 else 0x0000#16 := by
  cases i with
  | addReg | andReg | not | jmp | jsrr | trap =>
    simp [ignoredBits, opcode, encode, regField, BitVec.and_or_distrib_right, fieldAt_and_eq_zero]
  | ret | rti | reserved => rfl
  | br | addImm | ld | st | jsr | andImm | ldr | str | ldi | sti | lea => exact BitVec.and_zero

/-- Settles O3: the decoder reads no ignored bit, and the encoder's fields do not reach them. -/
theorem ignoredBitsDoNotMatter : Obligations.IgnoredBitsDoNotMatter :=
  ⟨decode_xor_ignoredBits, fun w d s => congrArg (exec · s) (decode_xor_ignoredBits w d), ignoredBits_eq,
    encode_and_ignoredBits⟩

/-! ## The reserved opcode and the branch that selects no flag -/

/-- Settles O5: a decoded instruction has the opcode of its word, and only `reserved` has opcode 1101. -/
theorem reservedOpcodeIsIllegal : Obligations.ReservedOpcodeIsIllegal := by
  refine ⟨fun w => ⟨fun h => ?_, decode_of_opcode_reserved⟩, fun s => rfl⟩
  rw [← opcode_decode, h, opcode]

theorem branchTaken_no_flag (s : State) : branchTaken false false false s = false := by
  have hmask : branchMask false false false = 0#3 := rfl
  rw [branchTaken, hmask, BitVec.zero_and]
  rfl

/-- The word of an instruction whose bits 15:9 are zero is a BR with mask 000. -/
theorem decode_of_high_bits_zero {w : Word} (h : w.extractLsb' 9 7 = 0#7) :
    decode w = .br false false false (w.extractLsb' 0 9) := by
  have hbit : ∀ k, k < 7 → w.getLsbD (9 + k) = false := fun k hk => by
    simpa [hk] using congrArg (·.getLsbD k) h
  have ho : opcodeOf w = 0b0000#4 :=
    OpcodeBits.opcodeOf_eq ⟨hbit 3 (by decide), hbit 4 (by decide), hbit 5 (by decide), hbit 6 (by decide)⟩
  rw [decode_of_opcode_br ho, hbit 2 (by decide), hbit 1 (by decide), hbit 0 (by decide)]

/-- Settles O6: a mask of 000 selects no flag, so the branch is not taken. -/
theorem branchWithEmptyMaskIsANoOp : Obligations.BranchWithEmptyMaskIsANoOp := by
  intro w h s
  rw [decode_of_high_bits_zero h, exec, execBr, branchTaken_no_flag]
  rfl

end Sys2Proof.Machine
end

section
/-! The assembler's range checks, label operands and object files (30_encoding.md R117 to R122): the words a source text
assembles to are one per slot, and the loader reads them back. -/

namespace Sys2Proof.Machine

/-! ## Range checks -/

theorem signedField_eq_some {n : Nat} {v : Int} {f : BitVec n} :
    signedField n v = some f ↔ (-2 ^ (n - 1) ≤ v ∧ v < 2 ^ (n - 1)) ∧ BitVec.ofInt n v = f := by
  simp only [signedField, Option.ite_none_right_eq_some, Option.some.injEq]

theorem exists_signedField {n : Nat} {v : Int} :
    (∃ f, signedField n v = some f) ↔ -2 ^ (n - 1) ≤ v ∧ v < 2 ^ (n - 1) := by
  simp only [signedField_eq_some, exists_and_left, exists_eq', and_true]

theorem signedField_toInt {n : Nat} (f : BitVec n) : signedField n f.toInt = some f :=
  signedField_eq_some.mpr ⟨⟨f.le_toInt, BitVec.toInt_lt⟩, BitVec.ofInt_toInt⟩

theorem toInt_of_signedField {n : Nat} {v : Int} {f : BitVec n} (hn : 0 < n) (h : signedField n v = some f) :
    f.toInt = v := by
  obtain ⟨⟨hlo, hhi⟩, rfl⟩ := signedField_eq_some.mp h
  exact BitVec.toInt_ofInt_eq_self hn hlo hhi

theorem signedField_eq_none {n : Nat} {v : Int} (h : ¬(-2 ^ (n - 1) ≤ v ∧ v < 2 ^ (n - 1))) : signedField n v = none :=
  if_neg h

/-- A field holds `v` modulo 2^n. -/
theorem ofInt_eq_iff {n : Nat} {v : Int} {f : BitVec n} : BitVec.ofInt n v = f ↔ (f.toNat : Int) = v % 2 ^ n := by
  have hpos : 0 ≤ v % 2 ^ n := Int.emod_nonneg _ (by positivity)
  rw [← BitVec.toNat_inj, BitVec.toNat_ofInt]
  push_cast
  omega

theorem vectorField_eq_some {v : Int} {f : BitVec 8} :
    vectorField v = some f ↔ 0 ≤ v ∧ v ≤ 255 ∧ (f.toNat : Int) = v := by
  simp only [vectorField, Option.ite_none_right_eq_some, Option.some.injEq, ofInt_eq_iff]
  omega

theorem fillWord_eq_some {v : Int} {w : Word} :
    fillWord v = some w ↔ -32768 ≤ v ∧ v ≤ 65535 ∧ (w.toNat : Int) = v % 65536 := by
  simp only [fillWord, Option.ite_none_right_eq_some, Option.some.injEq, ofInt_eq_iff, and_assoc]
  rfl

/-- Settles O52: each check is the range in its condition, and a value in the range of a field is the field's value. -/
theorem fieldsAcceptExactlyTheirRange : Obligations.FieldsAcceptExactlyTheirRange := by
  refine ⟨fun v => ?_, fun v => ?_, fun v => ?_, fun v => ?_, fun n v f => toInt_of_signedField,
    fun v f => vectorField_eq_some, fun v w => fillWord_eq_some⟩
  all_goals
    rw [exists_signedField]
    omega

/-! ## Label operands -/

section

variable {symbols : Symbols} {address value n : Nat} {label : List Byte} {mk : BitVec n → Instr}

theorem relativeWord_bound (hl : symbols.entry label = some (some value)) :
    relativeWord symbols address n label mk = oneWord ((signedField n ((value : Int) - (address + 1))).map mk) := by
  rw [relativeWord, hl]
  rfl

theorem relativeWord_fits (hl : symbols.entry label = some (some value)) {off : BitVec n}
    (hoff : off.toInt = (value : Int) - (address + 1)) :
    relativeWord symbols address n label mk = .ok [encode (mk off)] := by
  rw [relativeWord_bound hl, ← hoff, signedField_toInt]
  rfl

theorem relativeWord_outside (hl : symbols.entry label = some (some value))
    (hout : ¬(-2 ^ (n - 1) ≤ (value : Int) - (address + 1) ∧ (value : Int) - (address + 1) < 2 ^ (n - 1))) :
    relativeWord symbols address n label mk = .error .encodingRangeError := by
  rw [relativeWord_bound hl, signedField_eq_none hout]
  rfl

theorem relativeWord_unbound (hl : symbols.entry label = some none ∨ symbols.entry label = none) :
    relativeWord symbols address n label mk = .error (.symbolError label) := by
  rcases hl with hl | hl <;> rw [relativeWord, hl]

theorem bodyWords_unbound {body : Body} (hb : body.label = some label)
    (hl : symbols.entry label = some none ∨ symbols.entry label = none) :
    bodyWords symbols address body = .error (.symbolError label) := by
  cases body with
  | br | pcr | jsr =>
    cases hb
    exact relativeWord_unbound hl
  | plain | opImm | baseOffset | trap | fill | blkw | stringz => cases hb

end

/-- Settles O53: the three kinds of label operand are one `relativeWord`, at offsets of 9 bits and of 11. -/
theorem labelOffsetsAreRelativeToTheNextWord : Obligations.LabelOffsetsAreRelativeToTheNextWord := by
  refine ⟨fun symbols address value label n z p hl => ?_, fun symbols address value label kind r hl => ?_,
    fun symbols address value label hl => ?_, fun symbols address label body => bodyWords_unbound⟩
  all_goals exact ⟨fun off => relativeWord_fits hl, fun hout => relativeWord_outside hl (by omega)⟩

/-! ## The object file -/

/-- A word is its high byte and its low byte. -/
theorem bytes_append (w : Word) : w.extractLsb' 8 8 ++ w.extractLsb' 0 8 = w := by
  rw [BitVec.extractLsb'_append_extractLsb'_eq_extractLsb' (by rfl), BitVec.extractLsb'_eq_self]

theorem wordsOfBytes_bytesOfWords (words : List Word) : wordsOfBytes (bytesOfWords words) = some words := by
  induction words with
  | nil => rfl
  | cons w rest ih => simp only [bytesOfWords, wordsOfBytes, ih, bytes_append]

theorem parseObject_bytesOfWords {origin : Word} {words : List Word} (h : origin.toNat + words.length ≤ 65536) :
    parseObject (bytesOfWords (origin :: words)) = .ok (origin, words) := by
  rw [parseObject, wordsOfBytes_bytesOfWords]
  exact if_neg (Nat.not_lt.mpr h)

/-! ## The second pass -/

theorem oneWord_length {i : Option Instr} {ws : List Word} (h : oneWord i = .ok ws) : ws.length = 1 := by
  cases i with
  | none => cases h
  | some i =>
    cases h
    rfl

theorem relativeWord_length {symbols : Symbols} {address n : Nat} {label : List Byte} {mk : BitVec n → Instr}
    {ws : List Word} (h : relativeWord symbols address n label mk = .ok ws) : ws.length = 1 := by
  unfold relativeWord at h
  split at h
  · exact oneWord_length h
  · cases h
  · cases h

/-- One word per slot (R121). -/
theorem bodyWords_length {symbols : Symbols} {address : Nat} {body : Body} {ws : List Word}
    (h : bodyWords symbols address body = .ok ws) : ws.length = body.slots := by
  cases body with
  | plain =>
    cases h
    rfl
  | opImm | baseOffset | trap => exact oneWord_length h
  | br | pcr | jsr => exact relativeWord_length h
  | fill v =>
    simp only [bodyWords] at h
    split at h <;> cases h
    rfl
  | blkw n =>
    cases h
    exact List.length_replicate
  | stringz text =>
    cases h
    simp [Body.slots]

/-- The slots that the items occupy (R117). -/
def slotsOf (items : List Item) : Nat := (items.map fun item => item.body.slots).sum

theorem slotsOf_append_one (items : List Item) (item : Item) :
    slotsOf (items ++ [item]) = slotsOf items + item.body.slots := by
  simp [slotsOf]

theorem itemsWords_length {symbols : Symbols} {items : List Item} {ws : List Word}
    (h : itemsWords symbols items = .ok ws) : ws.length = slotsOf items := by
  induction items generalizing ws with
  | nil =>
    cases h
    rfl
  | cons item rest ih =>
    unfold itemsWords at h
    split at h
    · cases h
    next hbody =>
      split at h
      · cases h
      next hrest =>
        cases h
        simp [slotsOf, bodyWords_length hbody, ih hrest]

/-! ## The first pass -/

/-- The location counter stands behind the slots of the items, which begin at `origin`. -/
def Parsed.CountsFrom (origin : Nat) (p : Parsed) : Prop := p.counter = origin + slotsOf p.items

theorem Parsed.countsFrom_empty (symbols : Symbols) (origin : Nat) : Parsed.CountsFrom origin ⟨[], symbols, origin⟩ :=
  rfl

section

variable {capacity : Option Nat} {origin : Nat} {p q : Parsed} {line : Nat}

theorem Parsed.CountsFrom.place {body : Body} (hp : p.CountsFrom origin) (h : p.place capacity line body = .ok q) :
    q.CountsFrom origin := by
  have hq (symbols : Symbols) :
      Parsed.CountsFrom origin ⟨p.items ++ [⟨line, p.counter, body⟩], symbols, p.counter + body.slots⟩ := by
    rw [CountsFrom, slotsOf_append_one, ← Nat.add_assoc, ← hp]
  unfold Parsed.place at h
  split at h
  · cases h
    exact hq _
  · split at h <;> cases h
    exact hq _

theorem Parsed.CountsFrom.bind {label : List Byte} (hp : p.CountsFrom origin) (h : p.bind capacity line label = .ok q) :
    q.CountsFrom origin := by
  unfold Parsed.bind at h
  split at h <;> cases h
  exact hp

theorem parseUnits_countsFrom {fuel : Nat} {toks : Tokens} (hp : p.CountsFrom origin)
    (h : parseUnits fuel capacity p toks = .ok q) : q.CountsFrom origin := by
  fun_induction parseUnits fuel capacity p toks with
  -- The end of the tokens, and `.END`.
  | case1 | case8 =>
    cases h
    exact hp
  -- A mnemonic's body is placed, and a directive's.
  | case5 | case11 =>
    rename_i hplace ih
    exact ih (hp.place hplace) h
  -- A label is bound.
  | case7 =>
    rename_i hbind ih
    exact ih (hp.bind hbind) h
  -- The errors.
  | case2 | case3 | case4 | case6 | case9 | case10 | case12 | case13 | case14 | case15 => cases h

end

theorem parseProgram_ok {capacity : Option Nat} {toks : Tokens} {origin : Nat} {parsed : Parsed}
    (h : parseProgram capacity toks = .ok (origin, parsed)) :
    (∃ line line' rest, toks = (line, .directive (bytesOf "ORIG")) :: (line', .imm origin) :: rest) ∧ origin ≤ 65535 ∧
      parsed.CountsFrom origin := by
  unfold parseProgram at h
  split at h
  next line name line' v rest =>
    split at h
    next hname =>
      split at h
      next hv =>
        split at h
        · cases h
        next hunits =>
          cases h
          refine ⟨⟨line, line', rest, ?_⟩, by omega, parseUnits_countsFrom (Parsed.countsFrom_empty _ _) hunits⟩
          rw [hname, Int.toNat_of_nonneg hv.1]
      · cases h
    · cases h
  · cases h
  · cases h

theorem assemble_ok {p : AsmParams} {text : List Byte} {ws : List Word} (h : assemble p text = .ok ws) :
    ∃ toks origin parsed words, lexFrom p.maxLexeme .idle 1 text = .ok toks ∧
      parseProgram p.symbolCapacity toks = .ok (origin, parsed) ∧ parsed.counter ≤ 65536 ∧
      itemsWords parsed.symbols parsed.items = .ok words ∧ ws = BitVec.ofNat 16 origin :: words := by
  unfold assemble at h
  split at h
  · cases h
  next toks hlex =>
    split at h
    · cases h
    next origin parsed hparse =>
      split at h
      · cases h
      next hfits =>
        split at h <;> cases h
        next words hwords => exact ⟨toks, origin, parsed, words, hlex, hparse, Nat.not_lt.mp hfits, hwords, rfl⟩

theorem assembleFile_ok {p : AsmParams} {text file : List Byte} (h : assembleFile p text = .ok file) :
    ∃ ws, assemble p text = .ok ws ∧ file = bytesOfWords ws := by
  unfold assembleFile at h
  split at h <;> cases h
  next ws hws => exact ⟨ws, hws, rfl⟩

/-- Settles O54: the two passes agree on the slots, and the loader reads big-endian bytes back. -/
theorem assembledFilesAreLoadable : Obligations.AssembledFilesAreLoadable := by
  intro p text file h
  obtain ⟨ws, hasm, rfl⟩ := assembleFile_ok h
  obtain ⟨toks, origin, parsed, words, hlex, hparse, hfits, hwords, rfl⟩ := assemble_ok hasm
  obtain ⟨⟨line, line', rest, rfl⟩, horigin, hcounts⟩ := parseProgram_ok hparse
  have hnat : (BitVec.ofNat 16 origin).toNat = origin := Nat.mod_eq_of_lt (by omega)
  have hlength : words.length = slotsOf parsed.items := itemsWords_length hwords
  have hcounter : parsed.counter = origin + slotsOf parsed.items := hcounts
  refine ⟨line, line', rest, parsed, BitVec.ofNat 16 origin, words, ?_, ?_, hlength, ?_, hasm, ?_⟩
  · rwa [hnat]
  · rwa [hnat]
  · rw [hnat, hlength, hcounter, Nat.add_sub_cancel_left]
  · exact parseObject_bytesOfWords (by omega)

end Sys2Proof.Machine
end

section
/-! The operate instructions (40_operate.md R140 to R143): all five go through `operate`, so what it does is said once, for
every operation of the ALU. -/

namespace Sys2Proof.Machine

/-! ## The end of an instruction that writes a result -/

theorem writesResult_writeResult (dr : RegIx) (v : Word) (s : State) : WritesResult dr v s (writeResult dr v s) := by
  have kept : KeepsRegs [dr] s (writeResult dr v s) := fun r hr => by
    rw [writeResult_reg, if_neg (Ne.symm (List.mem_singleton.not.mp hr))]
  exact ⟨State.reg_setReg_same s dr v, flagsFollow_setcc v _, keepsPsrHigh_setcc v _, kept, rfl, fun _ => rfl,
    ⟨rfl, rfl, rfl, rfl, rfl⟩, ⟨rfl, rfl, rfl⟩⟩

theorem operate_writesResult (op : AluOp) (dr : RegIx) (a b : Word) (s : State) :
    ∃ t, operate op dr a b s = .next t ∧ WritesResult dr (aluResult op a b) s t :=
  ⟨_, rfl, writesResult_writeResult dr _ s⟩

/-! ## ADD, AND and NOT -/

/-- Settles O7: both forms are `operate` with the ALU's addition. -/
theorem addWritesTheSum : Obligations.AddWritesTheSum :=
  ⟨fun _ h => decode_of_opcode_add h, fun dr sr1 sr2 s => operate_writesResult .add dr (s.reg sr1) (s.reg sr2) s,
    fun dr sr1 imm s => operate_writesResult .add dr (s.reg sr1) (immediate imm) s⟩

/-- Settles O8: both forms are `operate` with the ALU's conjunction. -/
theorem andWritesTheConjunction : Obligations.AndWritesTheConjunction :=
  ⟨fun _ h => decode_of_opcode_and h, fun dr sr1 sr2 s => operate_writesResult .and dr (s.reg sr1) (s.reg sr2) s,
    fun dr sr1 imm s => operate_writesResult .and dr (s.reg sr1) (immediate imm) s⟩

/-- The register fields of NOT's word lie above the six bits that the decoder ignores (30_encoding.md R97). -/
theorem encode_not_low (dr sr : RegIx) : (encode (.not dr sr)).extractLsb' 0 6 = 0b111111#6 := by
  simp [encode, regField, BitVec.extractLsb'_or]

/-- Settles O9: NOT is `operate` with the ALU's complement. -/
theorem notWritesTheComplement : Obligations.NotWritesTheComplement := by
  refine ⟨fun w h => decode_of_opcode_not h, fun w dr sr hw => ?_,
    fun dr sr s => operate_writesResult .not dr (s.reg sr) 0#16 s⟩
  rw [hw]
  exact encode_not_low dr sr

/-! ## Addition modulo 2^16 -/

theorem operate_add_next {dr : RegIx} {a b : Word} {s t : State} (h : operate .add dr a b s = .next t) :
    (t.reg dr).toNat = (a.toNat + b.toNat) % 65536 ∧ (t.reg dr).toInt = (a.toInt + b.toInt).bmod 65536 ∧
      WritesResult dr (t.reg dr) s t := by
  obtain ⟨u, hu, written⟩ := operate_writesResult .add dr a b s
  obtain rfl : u = t := Host.Outcome.next.inj (hu.symm.trans h)
  have hsum : u.reg dr = a + b := written.1
  rw [hsum]
  exact ⟨BitVec.toNat_add a b, BitVec.toInt_add a b, written⟩

/-- Settles O10: the signed and the unsigned sum are one word, and sign extension keeps the immediate's signed value. -/
theorem addIsModularAddition : Obligations.AddIsModularAddition := by
  refine ⟨fun dr sr1 sr2 s t h => operate_add_next h, fun dr sr1 imm s t h => ?_⟩
  have himm : (imm.signExtend 16).toInt = imm.toInt := BitVec.toInt_signExtend_of_le (by decide)
  rw [← himm]
  exact operate_add_next h

end Sys2Proof.Machine
end

section
/-! Loads, stores and LEA (41_data_movement.md R150 to R156): every access goes through the accessor, so what a load, a store
and a read of a pointer do is said once, in the words of the spec. -/

namespace Sys2Proof.Machine

/-! ## Reading and going on -/

/-- An instruction whose read blocks is blocked, whatever it would go on with. -/
theorem readThen_of_not_readable {a : Word} {s : State} (k : Word → State → Result) (h : ¬ Readable a s) :
    readThen a s k = .fault .keyboardBlocked := by
  rw [readThen, memRead_of_not_readable h]

theorem readThen_of_readsWord {a v : Word} {s m : State} (k : Word → State → Result) (h : ReadsWord a v s m) :
    readThen a s k = k v m :=
  readThen_ok k (memRead_of_readsWord h)

theorem exists_readsWord {a : Word} {s : State} (h : Readable a s) : ∃ v m, ReadsWord a v s m := by
  obtain ⟨v, m, -, hread⟩ := readsWord_of_readable h
  exact ⟨v, m, hread⟩

theorem ReadsWord.reg {a v : Word} {s m : State} (h : ReadsWord a v s m) (r : RegIx) : m.reg r = s.reg r :=
  (memRead_readsOnly (memRead_of_readsWord h)).reg r

/-! ## Loads -/

/-- A load reads its address, and then writes the word it read to DR. -/
theorem loadFrom_of_readable {a : Word} {s : State} (dr : RegIx) (h : Readable a s) :
    ∃ v m t, ReadsWord a v s m ∧ loadFrom a dr s = .next t ∧ WritesResult dr v m t := by
  obtain ⟨v, m, hread⟩ := exists_readsWord h
  exact ⟨v, m, writeResult dr v m, hread, readThen_of_readsWord _ hread, writesResult_writeResult dr v m⟩

theorem loadFrom_of_not_readable {a : Word} {s : State} (dr : RegIx) (h : ¬ Readable a s) :
    loadFrom a dr s = .fault .keyboardBlocked :=
  readThen_of_not_readable _ h

/-- LDI is the load through the pointer, once the pointer is read. -/
theorem exec_ldi_of_readsWord {dr : RegIx} {off : BitVec 9} {p : Word} {s m : State}
    (h : ReadsWord (s.pc + off.signExtend 16) p s m) : exec (.ldi dr off) s = loadFrom p dr m :=
  readThen_of_readsWord _ h

/-- Settles O12: LD is the load from the PC-relative address. -/
theorem ldLoadsTheWord : Obligations.LdLoadsTheWord :=
  ⟨fun _ h => decode_of_opcode_ld h, fun dr _ _ h => loadFrom_of_readable dr h,
    fun dr _ _ h => loadFrom_of_not_readable dr h⟩

/-- Settles O13: the read of the pointer answers or blocks, and then the load through it does. -/
theorem ldiLoadsThroughThePointer : Obligations.LdiLoadsThroughThePointer := by
  refine ⟨fun w h => decode_of_opcode_ldi h, fun dr off s h => ?_, fun dr off s h => readThen_of_not_readable _ h⟩
  obtain ⟨p, m, hp⟩ := exists_readsWord h
  refine ⟨p, m, hp, fun hr => ?_, fun hb => ?_⟩
  · rw [exec_ldi_of_readsWord hp]
    exact loadFrom_of_readable dr hr
  · rw [exec_ldi_of_readsWord hp]
    exact loadFrom_of_not_readable dr hb

/-- Settles O14: LDR is the load from the base and the offset, whatever DR is. -/
theorem ldrLoadsFromTheBase : Obligations.LdrLoadsFromTheBase :=
  ⟨fun _ h => decode_of_opcode_ldr h, fun dr _ _ _ h => loadFrom_of_readable dr h,
    fun dr _ _ _ h => loadFrom_of_not_readable dr h⟩

/-- Settles O15: LEA writes the address as a result, with no read before. -/
theorem leaLoadsTheAddress : Obligations.LeaLoadsTheAddress :=
  ⟨fun _ h => decode_of_opcode_lea h, fun dr off s => ⟨_, rfl, writesResult_writeResult dr (pcRelative9 off s) s⟩⟩

/-! ## Stores -/

/-- Settles O16: ST is the data write of SR at the PC-relative address. -/
theorem stStoresTheRegister : Obligations.StStoresTheRegister :=
  ⟨fun _ h => decode_of_opcode_st h,
    fun sr off s => ⟨_, rfl, storesWord_memWrite (pcRelative9 off s) (s.reg sr) s⟩⟩

/-- Settles O17: the read of the pointer leaves SR alone, and the data write goes where it points. -/
theorem stiStoresThroughThePointer : Obligations.StiStoresThroughThePointer := by
  refine ⟨fun w h => decode_of_opcode_sti h, fun sr off s h => ?_, fun sr off s h => readThen_of_not_readable _ h⟩
  obtain ⟨p, m, hp⟩ := exists_readsWord h
  refine ⟨p, m, memWrite p (m.reg sr) m, hp, readThen_of_readsWord _ hp, ?_⟩
  rw [← hp.reg sr]
  exact storesWord_memWrite p (m.reg sr) m

/-- Settles O18: STR is the data write of SR at the base and the offset, whatever SR is. -/
theorem strStoresAtTheBase : Obligations.StrStoresAtTheBase :=
  ⟨fun _ h => decode_of_opcode_str h,
    fun sr base off s => ⟨_, rfl, storesWord_memWrite (basePlusOffset base off s) (s.reg sr) s⟩⟩

end Sys2Proof.Machine
end

section
/-! Branches, jumps and calls (42_control.md R170 to R174): a jump is `setPc`, a call is the link and then `setPc`, so what
each of them changes is said once. -/

namespace Sys2Proof.Machine

/-! ## Jumps and calls -/

theorem onlyJumps_setPc (target : Word) (s : State) : OnlyJumps target s (s.setPc target) :=
  ⟨rfl, rfl, fun _ _ => rfl, fun _ => rfl, ⟨rfl, rfl, rfl, rfl, rfl⟩, ⟨rfl, rfl, rfl⟩⟩

theorem State.reg_link (s : State) (r : RegIx) : s.link.reg r = if r = 7 then s.pc else s.reg r := by
  simp only [State.link, State.reg_setReg, eq_comm]

theorem keepsRegs_link (s : State) : KeepsRegs [7] s s.link := fun r hr => by
  rw [State.reg_link, if_neg (List.mem_singleton.not.mp hr)]

theorem calls_link_setPc (target : Word) (s : State) : Calls target s (s.link.setPc target) :=
  ⟨rfl, State.reg_setReg_same s 7 s.pc, rfl, keepsRegs_link s, fun _ => rfl, ⟨rfl, rfl, rfl, rfl, rfl⟩, ⟨rfl, rfl, rfl⟩⟩

/-! ## BR -/

/-- The bits of the mask are, from the top down, those of N, Z and P (30_encoding.md R96). -/
theorem branchMask_and_ne_zero (n z p : Bool) (cc : BitVec 3) :
    branchMask n z p &&& cc ≠ 0#3 ↔
      (n = true ∧ cc.getLsbD 2 = true) ∨ (z = true ∧ cc.getLsbD 1 = true) ∨ (p = true ∧ cc.getLsbD 0 = true) := by
  revert n z p cc
  decide

theorem State.getLsbD_cc (s : State) {k : Nat} (hk : k < 3) : s.cc.getLsbD k = s.psr.getLsbD k := by
  simp [State.cc, hk]

theorem branchTaken_iff (n z p : Bool) (s : State) :
    branchTaken n z p s = true ↔
      (n = true ∧ s.psr.getLsbD 2 = true) ∨ (z = true ∧ s.psr.getLsbD 1 = true) ∨
        (p = true ∧ s.psr.getLsbD 0 = true) := by
  rw [branchTaken, decide_eq_true_iff, branchMask_and_ne_zero, s.getLsbD_cc (by decide), s.getLsbD_cc (by decide),
    s.getLsbD_cc (by decide)]

theorem exec_br_of_taken {n z p : Bool} {s : State} (off : BitVec 9) (h : branchTaken n z p s = true) :
    exec (.br n z p off) s = .next (s.setPc (pcRelative9 off s)) := by
  rw [exec, execBr, if_pos h]

theorem exec_br_of_not_taken {n z p : Bool} {s : State} (off : BitVec 9) (h : ¬ branchTaken n z p s = true) :
    exec (.br n z p off) s = .next s := by
  rw [exec, execBr, if_neg h]

/-- Settles O19: the branch is taken exactly when the mask selects a flag that is set, and then it is a jump. -/
theorem brJumpsOnASelectedFlag : Obligations.BrJumpsOnASelectedFlag := by
  refine ⟨fun w h => decode_of_opcode_br h, fun n z p off s h => ?_, fun n z p off s h => ?_⟩
  · exact ⟨_, exec_br_of_taken off ((branchTaken_iff n z p s).mpr h), onlyJumps_setPc (pcRelative9 off s) s⟩
  · exact exec_br_of_not_taken off ((branchTaken_iff n z p s).not.mpr h)

/-! ## JMP and RET -/

/-- The two names that the decoder has for words of format JMP have one effect. -/
theorem exec_jumpVia (base : RegIx) (s : State) : exec (jumpVia base) s = .next (s.setPc (s.reg base)) := by
  unfold jumpVia
  split
  next hseven => rw [hseven, exec, execRet]
  · rw [exec, execJmp]

/-- Settles O20: a word of format JMP is a jump through its base register, under either name. -/
theorem jmpAndRetJumpToTheRegister : Obligations.JmpAndRetJumpToTheRegister := by
  refine ⟨fun w h s => ?_, rfl, fun base s => ⟨_, rfl, onlyJumps_setPc (s.reg base) s⟩,
    fun s => ⟨_, rfl, onlyJumps_setPc (s.reg 7) s⟩⟩
  rw [decode_of_opcode_jmp h, exec_jumpVia]
  exact ⟨_, rfl, onlyJumps_setPc (s.reg (regAt w 6)) s⟩

/-! ## JSR and JSRR -/

/-- Settles O21: JSR is a call of an address relative to the pc before the link. -/
theorem jsrCallsRelativeToThePc : Obligations.JsrCallsRelativeToThePc := by
  refine ⟨fun w h hform => ?_, fun off s => ⟨_, rfl, calls_link_setPc (pcRelative11 off s) s⟩⟩
  rw [decode_of_opcode_jsr h, if_pos hform]

/-- Settles O22: JSRR is a call of what its base register holds after the link, which for R7 is the pc. -/
theorem jsrrCallsTheRegister : Obligations.JsrrCallsTheRegister := by
  refine ⟨fun w h hform => ?_, fun base s => ?_⟩
  · rw [decode_of_opcode_jsr h, if_neg (Bool.eq_false_iff.mp hform)]
    rfl
  · rw [← State.reg_link]
    exact ⟨_, rfl, calls_link_setPc (s.link.reg base) s⟩

end Sys2Proof.Machine
end

section
/-! TRAP and RTI (43_system.md R180, R181): trap entry is a call of the word in the vector table, and a return is two data
reads, of which the second does not see what the first pop did to the pc and to R6. -/

namespace Sys2Proof.Machine

/-! ## TRAP -/

theorem toNat_trapEntry (vect : BitVec 8) : (trapEntry vect).toNat = vect.toNat :=
  BitVec.toNat_setWidth_of_le (by decide)

/-- The vector lies below the four bits that the decoder ignores (30_encoding.md R97). -/
theorem encode_trap_ignored (vect : BitVec 8) : (encode (.trap vect)).extractLsb' 8 4 = 0b0000#4 := by
  simp [encode, BitVec.extractLsb'_or]

/-- Settles O23: TRAP is a call of the word in the table's entry, which is RAM. -/
theorem trapGoesThroughTheVectorTable : Obligations.TrapGoesThroughTheVectorTable := by
  refine ⟨fun w h => decode_of_opcode_trap h, encode_trap_ignored, fun vect s => ?_⟩
  rw [exec, execTrap, enterTrap_trapEntry, toNat_trapEntry]
  exact ⟨_, rfl, calls_link_setPc (s.mem.read vect.toNat) s⟩

/-! ## The two pops of RTI -/

/-- Two words in a row are not both KBDR, so a read of the first takes no byte that a read of the second waits for. -/
theorem ReadsWord.readable_succ {a v : Word} {s m : State} (h : ReadsWord a v s m) :
    Readable (a + 1#16) m ↔ Readable (a + 1#16) s := by
  by_cases hk : select a = .kbdr
  · have hne : a + 1#16 ≠ 0xFE02#16 := by
      rw [select_eq_kbdr.mp hk]
      decide
    exact iff_of_true (absurd · hne) (absurd · hne)
  · cases (memRead_of_ne_kbdr hk).symm.trans (memRead_of_readsWord h)
    exact Iff.rfl

/-- What a pop does to the pc and to R6 is not seen by the accessor. -/
theorem unseen_setPc_bumpStack (target : Word) : Unseen fun s => (s.setPc target).bumpStack where
  fetch _ _ := rfl
  take hi := ⟨_, hi, rfl⟩
  write a v s := by
    unfold memWrite
    cases select a <;> rfl

/-- Two pops move R6 two words up. -/
theorem bumpStack_bumpStack_reg_six (s : State) : s.bumpStack.bumpStack.reg 6 = s.reg 6 + 2#16 := by
  rw [bumpStack_reg_six, bumpStack_reg_six, BitVec.add_assoc]
  rfl

section

variable {s m n : State} {newPc newPsr : Word}

/-- After the pop of the pc the return goes on with the pop one word up. -/
theorem returnFromTrap_of_readsWord (hm : ReadsWord (s.reg 6) newPc s m) :
    returnFromTrap s = readThen (s.reg 6 + 1#16) (m.setPc newPc).bumpStack
      fun psr u => .next (State.bumpStack { u with psr := psr }) := by
  rw [returnFromTrap, popThen, readThen_of_readsWord _ hm, popThen, bumpStack_reg_six, setPc_reg, hm.reg]

theorem returnFromTrap_of_pops (hm : ReadsWord (s.reg 6) newPc s m) (hn : ReadsWord (s.reg 6 + 1#16) newPsr m n) :
    returnFromTrap s = .next { n.bumpStack.bumpStack with pc := newPc, psr := newPsr } := by
  have hread := (unseen_setPc_bumpStack newPc).read (memRead_of_readsWord hn)
  rw [returnFromTrap_of_readsWord hm, readThen_ok _ hread]
  rfl

theorem exec_rti_of_supervisorMode (h : s.psr.getLsbD 15 = false) : exec .rti s = returnFromTrap s :=
  if_neg (Bool.eq_false_iff.mp h)

/-- A return of which either pop has to wait is blocked: the first pop supplies nothing to the second. -/
theorem returnFromTrap_of_not_readable (h : ¬ Readable (s.reg 6) s ∨ ¬ Readable (s.reg 6 + 1#16) s) :
    returnFromTrap s = .fault .keyboardBlocked := by
  by_cases hfirst : Readable (s.reg 6) s
  · obtain ⟨newPc, m, hm⟩ := exists_readsWord hfirst
    have hsecond : ¬ Readable (s.reg 6 + 1#16) m :=
      hm.readable_succ.not.mpr (h.resolve_left (not_not_intro hfirst))
    rw [returnFromTrap_of_readsWord hm]
    exact readThen_of_not_readable _ hsecond
  · exact readThen_of_not_readable _ hfirst

end

/-- Settles O24: the violation comes before any access, and a return is its two pops or the block of one of them. -/
theorem rtiPopsPcAndPsr : Obligations.RtiPopsPcAndPsr := by
  refine ⟨fun w h => decode_of_opcode_rti h, rfl, fun s huser => exec_rti_of_userMode huser,
    fun s hmode hfirst hsecond => ?_, fun s hmode hblocked => ?_⟩
  · obtain ⟨newPc, m, hm⟩ := exists_readsWord hfirst
    obtain ⟨newPsr, n, hn⟩ := exists_readsWord (hm.readable_succ.mpr hsecond)
    have hexec := (exec_rti_of_supervisorMode hmode).trans (returnFromTrap_of_pops hm hn)
    have hreg : n.bumpStack.bumpStack.reg 6 = s.reg 6 + 2#16 := by
      rw [bumpStack_bumpStack_reg_six, hn.reg, hm.reg]
    have hmem : KeepsMemory s n := by
      obtain ⟨_, _, rfl⟩ :=
        (memRead_readsOnly (memRead_of_readsWord hm)).trans (memRead_readsOnly (memRead_of_readsWord hn))
      exact fun _ => rfl
    exact ⟨newPc, m, newPsr, n, _, hm, hn, hexec, rfl, rfl, hreg, (exec_effect hexec).keepsRegs, hmem,
      ⟨rfl, rfl, rfl, rfl, rfl⟩, ⟨rfl, rfl, rfl⟩⟩
  · exact (exec_rti_of_supervisorMode hmode).trans (returnFromTrap_of_not_readable hblocked)

end Sys2Proof.Machine
end

section
/-! Runtime errors, the end of a run and the mode (60_exceptions.md R190, R192, R200, R205): an error is a next state from
which there is none, a running core stops only where it is blocked, and nothing but RTI in supervisor mode writes psr[15]. -/

namespace Sys2Proof.Machine

/-! ## Runtime errors and the end of a run -/

/-- A run that is over has no next state (10_state.md R33). -/
theorem step_of_not_running {s : State} (h : s.status ≠ .running) : step s = .fault .runOver := by
  cases hs : s.status with
  | running => exact absurd hs h
  | halted | error => rw [step, hs]

/-- Only an instruction blocks: the halt check reads nothing. -/
theorem ready_of_step_blocked {s : State} (h : step s = .fault .keyboardBlocked) : Ready s := by
  rcases step_fault h with ⟨-, hf⟩ | ⟨hrun, hbit, -⟩
  · cases hf
  · exact ⟨hrun, hbit⟩

/-- Settles O32: both errors are raised from the state after the fetch, and no step leaves an error. -/
theorem runtimeErrorWritesOnlyTheRunState : Obligations.RuntimeErrorWritesOnlyTheRunState := by
  refine ⟨fun s hr hi => ?_, fun s hr hi huser => ?_, fun s t kind _ ht => step_of_not_running (by simp [ht])⟩
  · rw [step_of_ready hr, State.current, hi]
    rfl
  · rw [step_of_ready hr, State.current, hi, exec_rti_of_userMode (s := s.advance) huser]
    rfl

/-- Settles O33: a run that is over has no next state, and a running core has one unless it is blocked. -/
theorem onlyAnEndedOrBlockedRunStops : Obligations.OnlyAnEndedOrBlockedRunStops := by
  intro s
  by_cases hs : s.status = .running
  · rcases step_next_or_blocked hs with hnext | ⟨hi, hblocked⟩
    · exact .inl hnext
    · exact .inr (.inr ⟨ready_of_step_blocked hblocked, hi, hblocked⟩)
  · exact .inr (.inl ⟨hs, step_of_not_running hs⟩)

/-! ## The mode -/

/-- Boot puts `RESET_PRIV` in psr[15] (10_state.md R31). -/
theorem PowerOn.psr_mode (resetPriv : Bool) : (PowerOn.psr resetPriv).getLsbD 15 = resetPriv := by
  cases resetPriv <;> rfl

/-- An instruction keeps the mode, unless it is RTI in supervisor mode: `setcc` writes below psr[15], and what does not set
the condition codes leaves the whole PSR alone. -/
theorem exec_userMode {i : Instr} {s t : State} (h : exec i s = .next t) :
    t.userMode = s.userMode ∨ (s.userMode = false ∧ i = .rti) := by
  by_cases hrti : i = .rti
  · subst hrti
    cases huser : s.userMode with
    | false => exact .inr ⟨rfl, rfl⟩
    | true =>
      rw [exec_rti_of_userMode huser] at h
      rw [raiseError_next h]
      exact .inl huser
  · left
    cases hcc : setccReg i with
    | none => rw [State.userMode, State.userMode, (exec_effect h).psr hcc hrti]
    | some dr =>
      obtain ⟨-, -, hhigh⟩ := exec_setcc hcc h
      exact hhigh 15 (by decide)

/-- A step keeps the mode, unless it executes RTI in supervisor mode. -/
theorem step_userMode {s t : State} (h : step s = .next t) :
    t.userMode = s.userMode ∨ (Ready s ∧ s.userMode = false ∧ s.current = .rti) := by
  obtain ⟨hrun, ⟨-, rfl⟩ | ⟨hbit, hexec⟩⟩ := step_next h
  · exact .inl rfl
  · exact (exec_userMode hexec).imp_right fun hrti => ⟨⟨hrun, hbit⟩, hrti⟩

/-- A data read does not see the pc: what it does before the fetch it does after. -/
theorem ReadsWord.setPc {a v : Word} {s m : State} (h : ReadsWord a v s m) (pc : Word) :
    ReadsWord a v (s.setPc pc) (m.setPc pc) :=
  readsWord_of_memRead ((unseen_setPc pc).read (memRead_of_readsWord h))

/-- Executing RTI in supervisor mode takes the PSR from the second popped word. -/
theorem step_rti_psr {s t m n : State} {newPc newPsr : Word} (hr : Ready s) (hi : s.current = .rti)
    (hmode : s.userMode = false) (hm : ReadsWord (s.reg 6) newPc s m) (hn : ReadsWord (s.reg 6 + 1#16) newPsr m n)
    (h : step s = .next t) : t.psr = newPsr := by
  rw [step_of_ready hr, hi] at h
  exact execRti_psr (s := s.advance) hmode (hm.setPc (s.pc + 1#16)) (hn.setPc (s.pc + 1#16)) h

/-- Settles O42: a step keeps the mode unless it executes RTI in supervisor mode, so user mode is never left. -/
theorem userModeIsNeverLeft : Obligations.UserModeIsNeverLeft := by
  refine ⟨fun p _ _ => PowerOn.psr_mode p.resetPriv, fun s t huser h => ?_,
    fun s t h hne => (step_userMode h).resolve_left hne, fun s t m n newPc newPsr hr hi hmode hm hn h => ?_⟩
  · rcases step_userMode h with hsame | ⟨-, hsupervisor, -⟩
    · exact hsame.trans huser
    · exact absurd huser (Bool.eq_false_iff.mp hsupervisor)
  · rw [step_rti_psr hr hi hmode hm hn h]

end Sys2Proof.Machine
end

section
/-! The object file and its loader, the memory that a boot leaves, and a run that starts with TRAP x25
(70_reset_and_hazards.md R225 to R231, R236). -/

namespace Sys2Proof.Machine

/-! ## The loader -/

theorem wordsOfBytes_of_odd : ∀ {bytes : List Byte}, bytes.length % 2 = 1 → wordsOfBytes bytes = none
  | [], h => absurd h (by decide)
  | [_], _ => rfl
  | _ :: _ :: rest, h => by
    have hrest : rest.length % 2 = 1 := by simp only [List.length_cons] at h; omega
    rw [wordsOfBytes, wordsOfBytes_of_odd hrest]

theorem wordsOfBytes_of_even : ∀ {bytes : List Byte}, bytes.length % 2 = 0 →
    ∃ words, words.length = bytes.length / 2 ∧ wordsOfBytes bytes = some words
  | [], _ => ⟨[], rfl, rfl⟩
  | [_], h => absurd h (by simp)
  | hi :: lo :: rest, h => by
    have hrest : rest.length % 2 = 0 := by simp only [List.length_cons] at h; omega
    obtain ⟨words, hlength, hwords⟩ := wordsOfBytes_of_even hrest
    exact ⟨(hi ++ lo) :: words, by simp only [List.length_cons]; omega, by rw [wordsOfBytes, hwords]⟩

/-- A file of an origin word and an even number of bytes is held to the address space alone. -/
theorem parseObject_of_even (hi lo : Byte) {rest : List Byte} (h : rest.length % 2 = 0) :
    ∃ words, words.length = rest.length / 2 ∧ parseObject (hi :: lo :: rest) =
      if (hi ++ lo).toNat + rest.length / 2 > 65536 then .error .outsideAddressSpace else .ok (hi ++ lo, words) := by
  obtain ⟨words, hlength, hwords⟩ := wordsOfBytes_of_even h
  refine ⟨words, hlength, ?_⟩
  simp only [parseObject, wordsOfBytes, hwords, hlength]

theorem boot_of_parseObject_error {p : BootParams} (h : p.HasHalt) {object : List Byte} {e : LoadError}
    (he : parseObject object = .error e) : boot p h object = .error e := by
  rw [boot, he]

theorem boot_of_parseObject_ok {p : BootParams} (h : p.HasHalt) {object : List Byte} {origin : Word} {words : List Word}
    (ho : parseObject object = .ok (origin, words)) : boot p h object = .ok (bootState p origin words) := by
  rw [boot, ho]

theorem startRun_of_boot_error {p : BootParams} {h : p.HasHalt} {object : List Byte} {e : LoadError}
    (he : boot p h object = .error e) : startRun p h object = .error e := by
  rw [startRun, he]

theorem startRun_of_boot_ok {p : BootParams} {h : p.HasHalt} {object : List Byte} {s : State}
    (hs : boot p h object = .ok s) : startRun p h object = .ok ⟨s, p.input.afterBoot⟩ := by
  rw [startRun, hs]

/-- A run that starts is a booted core. -/
theorem startRun_ok {p : BootParams} {h : p.HasHalt} {object : List Byte} {r : Run} (hr : startRun p h object = .ok r) :
    ∃ origin words, r.core = bootState p origin words := by
  cases ho : parseObject object with
  | error e => cases (startRun_of_boot_error (boot_of_parseObject_error h ho)).symm.trans hr
  | ok c =>
    cases (startRun_of_boot_ok (boot_of_parseObject_ok h ho)).symm.trans hr
    exact ⟨c.1, c.2, rfl⟩

/-- Settles O50: the bytes of a word are its two halves, which the loader puts together again. -/
theorem objectFileIsBigEndianWords : Obligations.ObjectFileIsBigEndianWords :=
  ⟨fun _ _ => rfl, fun _ _ h => parseObject_bytesOfWords h⟩

/-- Settles O51: the number of bytes says whether they are words, and the number of words whether they fit. -/
theorem loaderRejectsExactlyThese : Obligations.LoaderRejectsExactlyThese := by
  refine ⟨fun bytes hodd => ?_, rfl, fun hi lo rest heven hlong => ?_, fun hi lo rest heven hfits => ?_,
    fun p h bytes e he => boot_of_parseObject_error h he⟩
  · rw [parseObject, wordsOfBytes_of_odd hodd]
  · obtain ⟨words, -, hparse⟩ := parseObject_of_even hi lo heven
    rw [hparse, if_pos hlong]
  · obtain ⟨words, hlength, hparse⟩ := parseObject_of_even hi lo heven
    exact ⟨words, hlength, by rw [hparse, if_neg (Nat.not_lt.mpr hfits)]⟩

/-! ## Memory after a boot -/

/-- The word at an address after words are loaded: the one of them that falls there, or else the word that was there. -/
theorem Memory.read_loadWords (m : Memory) (a : Nat) (words : List Word) (b : Nat) :
    (m.loadWords a words).read b = if a ≤ b then words.getD (b - a) (m.read b) else m.read b := by
  induction words generalizing m a with
  | nil => simp [Memory.loadWords]
  | cons w rest ih =>
    rw [Memory.loadWords, ih]
    rcases Nat.lt_trichotomy b a with hlt | rfl | hgt
    · rw [if_neg (by omega), if_neg (by omega), Memory.read_write_other _ _ (by omega)]
    · rw [if_neg (by omega), if_pos (Nat.le_refl b), Memory.read_write_same, Nat.sub_self, List.getD_cons_zero]
    · obtain ⟨d, rfl⟩ : ∃ d, b = a + 1 + d := ⟨b - (a + 1), by omega⟩
      rw [if_pos (by omega), if_pos (by omega), Memory.read_write_other _ _ (by omega),
        show a + 1 + d - a = d + 1 by omega, List.getD_cons_succ, Nat.add_sub_cancel_left]

/-- An installed image gives the word at an address one of its own for it, or has none and leaves it. -/
theorem Memory.read_install_cases (m : Memory) (image : List (Word × Word)) (a : Nat) :
    (∃ c ∈ image, c.1.toNat = a ∧ (m.install image).read a = c.2) ∨
      ((∀ c ∈ image, c.1.toNat ≠ a) ∧ (m.install image).read a = m.read a) := by
  induction image generalizing m with
  | nil => exact .inr ⟨fun _ hc => absurd hc List.not_mem_nil, rfl⟩
  | cons d rest ih =>
    rcases ih (m.write d.1.toNat d.2) with ⟨c, hc, ha, hread⟩ | ⟨hnone, hread⟩
    · exact .inl ⟨c, List.mem_cons_of_mem d hc, ha, hread⟩
    · by_cases hd : d.1.toNat = a
      · refine .inl ⟨d, List.mem_cons_self, hd, hread.trans ?_⟩
        rw [hd, Memory.read_write_same]
      · exact .inr ⟨List.forall_mem_cons.mpr ⟨hd, hnone⟩, hread.trans (Memory.read_write_other m d.2 (Ne.symm hd))⟩

theorem Memory.read_install_other (m : Memory) {image : List (Word × Word)} {a : Nat} (h : ∀ c ∈ image, c.1.toNat ≠ a) :
    (m.install image).read a = m.read a := by
  rcases Memory.read_install_cases m image a with ⟨c, hc, ha, -⟩ | ⟨-, hread⟩
  · exact absurd ha (h c hc)
  · exact hread

/-- An address for which an image has one word only holds it. -/
theorem Memory.read_install_mem (m : Memory) {image : List (Word × Word)} {c : Word × Word} (hc : c ∈ image)
    (hunique : ∀ d ∈ image, d.1 = c.1 → d.2 = c.2) : (m.install image).read c.1.toNat = c.2 := by
  rcases Memory.read_install_cases m image c.1.toNat with ⟨d, hd, ha, hread⟩ | ⟨hnone, -⟩
  · exact hread.trans (hunique d hd (BitVec.eq_of_toNat_eq ha))
  · exact absurd rfl (hnone c hc)

theorem BootImage.wordAt_other {image : List (Word × Word)} {a : Nat} (h : ∀ c ∈ image, c.1.toNat ≠ a) :
    BootImage.wordAt image a = 0 := by
  induction image with
  | nil => rfl
  | cons c rest ih =>
    obtain ⟨hc, hrest⟩ := List.forall_mem_cons.mp h
    rw [BootImage.wordAt, if_neg hc, ih hrest]

/-- An unlisted address outside the reference image reads as zero. -/
theorem Memory.unlisted_other {a : Nat} (h : ∀ c ∈ BootImage.reference, c.1.toNat ≠ a) : Memory.unlisted a = 0 := by
  rw [Memory.unlisted, BootImage.resetWord, BootImage.wordAt_other h, ite_self]

/-- An unlisted address of the reference image reads as the image's word. -/
theorem Memory.unlisted_reference : ∀ c ∈ BootImage.reference, Memory.unlisted c.1.toNat = c.2 :=
  List.all_iff_forall_prop.mp (by decide +kernel)

theorem Memory.read_zeroed (a : Nat) : Memory.zeroed.read a = 0 := by
  rcases Memory.read_install_cases [] (BootImage.reference.map fun c => (c.1, 0)) a with ⟨c, hc, -, hread⟩ | ⟨hnone, hread⟩
  · obtain ⟨d, -, rfl⟩ := List.mem_map.mp hc
    exact hread
  · exact hread.trans (Memory.unlisted_other fun d hd => hnone (d.1, 0) (List.mem_map.mpr ⟨d, hd, rfl⟩))

/-- Outside the boot image memory holds the object's words, and zero around them. -/
theorem read_bootMemory_other {p : BootParams} {a : Nat} (origin : Word) (words : List Word)
    (h : ∀ c ∈ p.bootImage, c.1.toNat ≠ a) :
    (bootMemory p origin words).read a = if origin.toNat ≤ a then words.getD (a - origin.toNat) 0 else 0 := by
  rw [bootMemory, Memory.read_install_other _ h, Memory.read_loadWords, Memory.read_zeroed]

/-- With the reference image an entry of the image holds its word, whatever the object file is. -/
theorem read_bootMemory_reference {p : BootParams} {c : Word × Word} (origin : Word) (words : List Word)
    (hp : p.bootImage = BootImage.reference) (hc : c ∈ BootImage.reference) :
    (bootMemory p origin words).read c.1.toNat = c.2 := by
  rw [bootMemory, hp]
  refine Memory.read_install_mem _ hc fun d hd ha => ?_
  rw [← Memory.unlisted_reference d hd, ha, Memory.unlisted_reference c hc]

/-- The reference image is the six table entries, and routines that all lie above the table. -/
theorem reference_beside_table : ∀ c ∈ BootImage.reference,
    (0x0020 ≤ c.1.toNat ∧ c.1.toNat ≤ 0x0025) ∨ 256 ≤ c.1.toNat :=
  List.all_iff_forall_prop.mp (by decide +kernel)

/-- Settles O49: the six entries are words of the image, which has no other below x0100. -/
theorem trapVectorTableAfterBoot : Obligations.TrapVectorTableAfterBoot := by
  intro p origin words hp
  have hentries : ∀ c ∈ BootImage.vectors, (bootMemory p origin words).read c.1.toNat = c.2 := fun c hc =>
    read_bootMemory_reference origin words hp (by simp [BootImage.reference, hc])
  simp only [BootImage.vectors, List.forall_mem_cons] at hentries
  obtain ⟨hgetc, hout, hputs, hin, hputsp, hhalt, -⟩ := hentries
  refine ⟨hgetc, hout, hputs, hin, hputsp, hhalt, fun v hv hentry hobject => ?_⟩
  have himage : ∀ c ∈ p.bootImage, c.1.toNat ≠ v := fun c hc => by
    have hbeside := reference_beside_table c (hp ▸ hc)
    omega
  refine (read_bootMemory_other origin words himage).trans ?_
  split
  · exact List.getD_eq_default _ _ (by omega)
  · rfl

/-! ## Boot -/

/-- What is still to be read after boot is the whole `INPUT`. -/
theorem byteAt_bootState (p : BootParams) (origin : Word) (words : List Word) (n : Nat) :
    Run.byteAt ⟨bootState p origin words, p.input.afterBoot⟩ n = p.input.byteAt n := by
  rw [Run.byteAt, bootState]
  cases p.input with
  | endless byte => rfl
  | finite bytes =>
    change (if n < bytes.length then bytes[n]? else [][n - bytes.length]?) = bytes[n]?
    split
    · rfl
    · next h => rw [List.getElem?_nil, List.getElem?_eq_none (Nat.not_lt.mp h)]

/-- Boot writes an image directly, so that an image which names each address once is in memory whole. -/
theorem read_bootMemory_mem {p : BootParams} {c : Word × Word} (origin : Word) (words : List Word)
    (hdistinct : p.bootImage.Pairwise fun c d => c.1 ≠ d.1) (hc : c ∈ p.bootImage) :
    (bootMemory p origin words).read c.1.toNat = c.2 := by
  refine Memory.read_install_mem _ hc fun d hd ha => ?_
  have hsame : d = c := List.inj_on_of_nodup_map (List.pairwise_map.mpr hdistinct) hd hc ha
  rw [hsame]

/-- Settles O47: a rejection is passed on, and the booted core's fields are those of `bootState`. -/
theorem bootFollowsTheSequence : Obligations.BootFollowsTheSequence := by
  refine ⟨fun p h object e he => startRun_of_boot_error (boot_of_parseObject_error h he),
    fun p h object origin words ho => ?_⟩
  have hboot := boot_of_parseObject_ok h ho
  have hpsr : PowerOn.psr p.resetPriv = if p.resetPriv then 0x8002#16 else 0x0002#16 := by
    cases p.resetPriv <;> rfl
  have hinput : ∀ bytes, p.input = .finite bytes → p.input.atBoot = bytes := fun bytes hi => by rw [hi, Input.atBoot]
  exact ⟨⟨bootState p origin words, p.input.afterBoot⟩, startRun_of_boot_ok hboot, hboot, rfl, rfl, hpsr, rfl, rfl, rfl,
    rfl, rfl, rfl, rfl, byteAt_bootState p origin words, hinput,
    fun hdistinct c hc => read_bootMemory_mem origin words hdistinct hc,
    fun a ha => read_bootMemory_other origin words fun c hc => mt BitVec.eq_of_toNat_eq (ha c hc)⟩

/-- A canonical storage in which every address reads as if unlisted lists none. -/
theorem Memory.eq_nil_of_read_unlisted {m : Memory} (h : m.wf) (hread : ∀ a, m.read a = Memory.unlisted a) : m = [] := by
  cases m with
  | nil => rfl
  | cons c rest =>
    obtain ⟨-, hlisted⟩ := h
    obtain ⟨-, hne⟩ := hlisted c List.mem_cons_self
    have hhead : Memory.read (c :: rest) c.1 = c.2 := if_pos rfl
    exact absurd (hhead.symm.trans (hread c.1)) hne

/-- Boot with the reference image and no program words leaves the reset contents of memory. -/
theorem bootMemory_reference_nil {p : BootParams} (origin : Word) (hp : p.bootImage = BootImage.reference) :
    bootMemory p origin [] = [] := by
  refine Memory.eq_nil_of_read_unlisted (bootMemory_wf p origin.isLt.le) fun a => ?_
  by_cases ha : ∃ c ∈ BootImage.reference, c.1.toNat = a
  · obtain ⟨c, hc, rfl⟩ := ha
    rw [read_bootMemory_reference origin [] hp hc, Memory.unlisted_reference c hc]
  · have hother : ∀ c ∈ BootImage.reference, c.1.toNat ≠ a := fun c hc he => ha ⟨c, hc, he⟩
    rw [read_bootMemory_other origin [] (hp ▸ hother), Memory.unlisted_other hother, List.getD_nil, ite_self]

/-- Settles O48: the loader accepts the origin word alone, and boot then leaves the reset contents of memory. -/
theorem resetIsTheBootOfAnOriginWord : Obligations.ResetIsTheBootOfAnOriginWord := by
  intro h
  have hmem : bootMemory resetParams 0x3000#16 [] = [] := bootMemory_reference_nil _ rfl
  rw [boot_of_parseObject_ok h (origin := 0x3000#16) (words := []) rfl, bootState, hmem]
  rfl

/-! ## The run loop -/

/-- Settles O30: a step of a ready core, the halt check, and the end of a run. -/
theorem stepRunsTheDecodedInstruction : Obligations.StepRunsTheDecodedInstruction :=
  ⟨fun _ hr => step_of_ready hr, fun _ hs hb => step_of_runBit_clear hs hb, fun _ hs => step_of_not_running hs⟩

/-- Iterations that have a next state begin with a step that has one. -/
theorem stepTimes_succ_next {n : Nat} {s t : State} (h : stepTimes (n + 1) s = .next t) :
    ∃ u, step s = .next u ∧ stepTimes n u = .next t := by
  unfold stepTimes at h
  split at h
  next u hu => exact ⟨u, hu, h⟩
  next => cases h
  next => cases h

/-- Iterations that have a next state have it with more input waiting behind. -/
theorem stepTimes_supply {n : Nat} {s t : State} (bytes : List Byte) (h : stepTimes n s = .next t) :
    stepTimes n (s.supply bytes) = .next (t.supply bytes) := by
  induction n generalizing s with
  | zero =>
    cases h
    rfl
  | succ n ih =>
    obtain ⟨u, hu, h⟩ := stepTimes_succ_next h
    rw [stepTimes_of_step (suppliedInputOnlyWaits s u bytes hu), ih h]

theorem step_input_nil {s t : State} (hi : s.input = []) (h : step s = .next t) : t.input = [] := by
  rcases step_takesAtMostOneByte h with hsame | ⟨c, hcons, -⟩
  · exact hsame.trans hi
  · simp [hi] at hcons

theorem stepTimes_input_nil {n : Nat} {s t : State} (hi : s.input = []) (h : stepTimes n s = .next t) : t.input = [] := by
  induction n generalizing s with
  | zero =>
    cases h
    exact hi
  | succ n ih =>
    obtain ⟨u, hu, h⟩ := stepTimes_succ_next h
    exact ih (step_input_nil hi hu) h

/-- Iterations that need no input take none of what there is. -/
theorem stepTimes_of_no_input {n : Nat} {s t : State} (h : stepTimes n { s with input := [] } = .next t) :
    stepTimes n s = .next { t with input := s.input } := by
  have hsupplied := stepTimes_supply s.input h
  have ht : t.input = [] := stepTimes_input_nil (s := { s with input := [] }) rfl h
  rwa [State.supply, State.supply, ht] at hsupplied

/-- The core after TRAP x25, as the routine of the boot image finds it. -/
theorem step_trap_halt {s : State} (hr : Ready s) (hw : fetch s.pc s = 0xF025#16) :
    step s = .next (s.advance.link.setPc (s.mem.read 0x0025)) := by
  rw [step_of_ready hr, State.current, hw]
  exact enterTrap_trapEntry 0x25 s.advance

/-- Settles O56: after the trap the core is at the image's routine, which halts with no input at all, so that whatever
input there is only waits. Boot installs the image, so before it the storage is the object's words alone. -/
theorem haltTrapEndsTheRun : Obligations.HaltTrapEndsTheRun := by
  intro p h
  obtain ⟨hentry, hhalts, -⟩ := h
  refine ⟨hentry, fun object r hr hw => ?_⟩
  obtain ⟨origin, words, hcore⟩ := startRun_ok hr
  rw [hcore] at hw ⊢
  have hready : Ready (bootState p origin words) := ⟨rfl, show PowerOn.mcr.getLsbD 15 = true by decide⟩
  have htrap := step_trap_halt hready hw
  obtain ⟨n, t, ht, hstatus, hmcr⟩ := hhalts
    { (bootState p origin words).advance.link with mem := Memory.zeroed.loadWords origin.toNat words } rfl
    (PowerOn.psr_mode p.resetPriv) ⟨rfl, rfl, rfl, rfl, rfl⟩
  exact ⟨n + 1, { t with input := p.input.atBoot }, (stepTimes_of_step htrap).trans (stepTimes_of_no_input ht), hstatus,
    hmcr, rfl⟩

end Sys2Proof.Machine
end

section
/-! The canonical form of the storage through a step, and the test vectors of the decoder. -/

namespace Sys2Proof.Machine

/-! ## The canonical form of the storage -/

theorem ReadsOnly.mem {s m : State} (h : ReadsOnly s m) : m.mem = s.mem := by
  obtain ⟨_, _, rfl⟩ := h
  rfl

/-- Of an instruction's effects a store alone writes the storage, and a data write keeps the canonical form. -/
theorem Effect.inv {i : Instr} {s t : State} (hs : Inv s) (h : Effect i s t) : Inv t := by
  cases h with
  | store hcc hm => exact memWrite_mem_wf (hm.mem ▸ hs)
  | result hcc hm | returned hi hm =>
    obtain ⟨_, _, rfl⟩ := hm
    exact hs
  | jump | call | violation | illegal => exact hs

/-- Settles O40: the halt check leaves the storage alone, and each effect of an instruction keeps its canonical form. -/
theorem storageStaysCanonical : Obligations.StorageStaysCanonical := by
  intro s t hs h
  obtain ⟨-, ⟨-, rfl⟩ | ⟨-, h⟩⟩ := step_next h
  · exact hs
  · exact (exec_effect h).inv (s := s.advance) hs

/-! ## The decoder's test vectors -/

/-- Settles O4: the decoder is evaluated on the twenty words. -/
theorem wordsOfTheSpecDecode : Obligations.WordsOfTheSpecDecode := by
  unfold Obligations.WordsOfTheSpecDecode
  decide

end Sys2Proof.Machine
end
